-- ==== Sys2Proof/Word.lean ====
section
/-! DEFINITION. The words of the machine: every value is an unsigned bit vector (spec R7). -/

namespace Sys2Proof

/-- A 16-bit value: a general register, the accumulator, an instruction word (spec R5). -/
abbrev Word := BitVec 16

/-- The content of one memory cell (spec R5, R24). -/
abbrev Byte := BitVec 8

/-- One of the four instruction fields `op`, `a`, `b`, `c` (spec R45). -/
abbrev Nibble := BitVec 4

/-- The execution stage's operation select, `OPSEL_W` = 5 bits (spec R6, R52). -/
abbrev OpSel := BitVec 5

/-- The value of the 17-bit instruction pointer (spec R17). -/
abbrev InstrPtr := BitVec 17

end Sys2Proof
end

