-- ==== Sys2Proof/Config.lean ====
section
/-! DEFINITION. The sizes and reset values the spec fixes (R5, R6, R26). There is no free value: the
spec leaves no value of this machine open. -/

namespace Sys2Proof

/-- The largest legal memory address (spec R5). -/
abbrev Config.maxAddress : Nat := 65535

/-- Reset value of each general register: the spec's own decision D3 (spec R26; log entry 5). -/
abbrev Config.regReset : Word := 0x0000#16

/-- Reset value of the accumulator: the spec's own decision D4 (spec R26; log entry 5). -/
abbrev Config.accReset : Word := 0x0000#16

/-- Reset value of the instruction pointer (spec R26). -/
abbrev Config.ipReset : InstrPtr := 0#17

/-- Reset value of the stack pointer, the top of memory (spec R26). -/
abbrev Config.spReset : Word := 65535#16

end Sys2Proof
end

