-- ==== Sys2Proof/Machine/State.lean ====
section
/-! DEFINITION. The state of the core as plain data, its reset value, and the reasons a step could
stop (spec/10_state.md, spec/50_interfaces.md). -/

namespace Sys2Proof.Machine

/-- The 65536 byte cells (spec R24), as a list of address and byte in canonical form: addresses
strictly rising, and no byte 0x00 listed, which is what an unlisted address reads as (spec R26). -/
abbrev Memory := List Host.Cell

/-- The three values of the step status output (spec R94). -/
inductive Status where
  /-- The step completed. -/
  | ok
  /-- The step faulted as spec R102 says. -/
  | divisionByZero
  /-- The step faulted as spec R103 says. -/
  | outOfRange
deriving DecidableEq, Repr

/-- What an operation or the slot write can `raise` (spec R8, R101). It ends the step with a status and
the machine goes on (spec R62, R105), so it is a next state of the model, not a stop. -/
inductive Exception where
  /-- DIV by a register holding 0 (spec R102). -/
  | divisionByZero
  /-- An access or a stack pointer outside 0 to 65535 (spec R103). -/
  | outOfRange
deriving DecidableEq, Repr

/-- What the outside presents to the core: a reset event (spec R92) or a step request with its
instruction word (spec R93). -/
inductive Input where
  /-- The reset event. -/
  | reset
  /-- A step request carrying one instruction word. -/
  | word (w : Word)
deriving DecidableEq, Repr

/-- All the state of the spec (R25), and the two interface fields of the model (log entries 1, 2). -/
structure State where
  /-- The general registers `x[0]` to `x[15]` (spec R11). -/
  regs : Vector Word 16
  /-- The accumulator (spec R14). -/
  acc : Word
  /-- The instruction pointer (spec R15, R17). -/
  ip : InstrPtr
  /-- The stack pointer (spec R19). -/
  sp : Word
  /-- The halted flag (spec R21). -/
  halted : Bool
  /-- The memory (spec R24). -/
  mem : Memory
  /-- MODEL's own: the status output of the most recent transaction, none before the first (spec R94,
  R104; log entry 2, DESIGN CHOICE). -/
  status : Option Status
  /-- MODEL's own: what the outside will present, first to come first (spec R91, R96; log entry 1,
  DESIGN CHOICE). -/
  inputs : List Input
deriving DecidableEq, Repr

/-- Why the machine stops with a fault: never. Every path through a step ends with a status (spec R95)
and the core remains operational after a fault of the spec (spec R105), so this type is empty. Safe. -/
inductive Fault
deriving DecidableEq, Repr

/-- Why an instruction has no meaning. -/
inductive Refusal where
  /-- Raised only by an arm of `exec` whose instruction is not modelled; no arm is. Safe. -/
  | notModelled (mnemonic : String)
deriving DecidableEq, Repr

/-- The state after reset (spec R26, R116): every byte 0x00, `ip` 0, `sp` 65535, not halted; every
register and the accumulator 0x0000 by the spec's decisions D3 and D4 (log entry 5). Nothing has been
requested or answered (log entries 1, 2). -/
def State.reset : State where
  regs := Vector.replicate 16 Config.regReset
  acc := Config.accReset
  ip := Config.ipReset
  sp := Config.spReset
  halted := false
  mem := []
  status := none
  inputs := []

end Sys2Proof.Machine
end

