-- ==== Sys2Proof/Machine/Alu.lean ====
section
/-! DEFINITION. The results of the execution stage: the exact result on unsigned integers, narrowed
to 16 bits (spec R72, R78, R83). -/

namespace Sys2Proof.Machine

/-- `(x + y) mod 65536` (spec R72, R73). -/
def aluAdd (x y : Word) : Word := BitVec.ofNat 16 (x.toNat + y.toNat)

/-- `(x - y) mod 65536`, in 0 to 65535 (spec R72, R74). -/
def aluSub (x y : Word) : Word := BitVec.ofInt 16 ((x.toNat : Int) - (y.toNat : Int))

/-- `(x * y) mod 65536` (spec R72, R75). -/
def aluMult (x y : Word) : Word := BitVec.ofNat 16 (x.toNat * y.toNat)

/-- `x // y` for a divisor that is not 0, rounded toward zero (spec R76; decision D12, log entry 11). -/
def aluDiv (x y : Word) : Word := BitVec.ofNat 16 (x.toNat / y.toNat)

/-- Bitwise AND (spec R79). -/
def aluAnd (x y : Word) : Word := x &&& y

/-- Bitwise OR (spec R80). -/
def aluOr (x y : Word) : Word := x ||| y

/-- Bitwise complement over 16 bits (spec R81). -/
def aluNot (x : Word) : Word := ~~~x

/-- Bitwise exclusive OR (spec R82). -/
def aluXor (x y : Word) : Word := x ^^^ y

/-- `(x * 2^n) mod 65536`: the bits that leave the word are lost (spec R84). -/
def aluLshift (x : Word) (n : Nat) : Word := BitVec.ofNat 16 (x.toNat * 2 ^ n)

/-- `x // 2^n`: zeros enter at bit 15 (spec R85; decision D13, log entry 12). -/
def aluRshift (x : Word) (n : Nat) : Word := BitVec.ofNat 16 (x.toNat / 2 ^ n)

end Sys2Proof.Machine
end

