-- ==== Sys2Proof/Syntax.lean ====
section
/-! DEFINITION. The instructions, one constructor per row of spec/opcode_table.json. Every constructor
carries all three operand nibbles of the one format (spec R45), the ignored ones too (spec R56), so
that a word and its instruction determine each other. -/

namespace Sys2Proof

/-- The four fields of an instruction word (spec R45). -/
structure Fields where
  op : Nibble
  a : Nibble
  b : Nibble
  c : Nibble
deriving DecidableEq, Repr

/-- The operations of the execution stage with their operand nibbles (spec R49, R53). -/
inductive Instr where
  /-- HALT, `op` 0x0; all fields ignored (spec R64). -/
  | halt (a b c : Nibble)
  /-- LOAD_IMMEDIATE, `op` 0x1: destination `a`, immediate parts `b`, `c` (spec R69). -/
  | loadImmediate (a b c : Nibble)
  /-- NOP2, the unassigned `op` 0x2 (and the selects 0x12 to 0x1F); all fields ignored (spec R65). -/
  | nop2 (a b c : Nibble)
  /-- DUMP, `op` 0x3: source `a`, address parts `b`, `c` (spec R70). -/
  | dump (a b c : Nibble)
  /-- ADD, `op` 0x4: sources `a`, `b` (spec R73). -/
  | add (a b c : Nibble)
  /-- SUB, `op` 0x5: minuend `a`, subtrahend `b` (spec R74). -/
  | sub (a b c : Nibble)
  /-- MULT, `op` 0x6: sources `a`, `b` (spec R75). -/
  | mult (a b c : Nibble)
  /-- DIV, `op` 0x7: dividend `a`, divisor `b` (spec R76). -/
  | div (a b c : Nibble)
  /-- AND, `op` 0x8: sources `a`, `b` (spec R79). -/
  | and (a b c : Nibble)
  /-- OR, `op` 0x9: sources `a`, `b` (spec R80). -/
  | or (a b c : Nibble)
  /-- NOT, `op` 0xA: source `a` (spec R81). -/
  | not (a b c : Nibble)
  /-- XOR, `op` 0xB: sources `a`, `b` (spec R82). -/
  | xor (a b c : Nibble)
  /-- LSHIFT, `op` 0xC: source `a`, count `b` itself (spec R84). -/
  | lshift (a b c : Nibble)
  /-- RSHIFT, `op` 0xD: source `a`, count `b` itself (spec R85). -/
  | rshift (a b c : Nibble)
  /-- PUSH, `op` 0xE: source `a` (spec R87). -/
  | push (a b c : Nibble)
  /-- POP, `op` 0xF: destination `a` (spec R88). -/
  | pop (a b c : Nibble)
  /-- DUMP_ACCUM, select 0x10, no instruction word (spec R54, R71): address parts `b`, `c`. -/
  | dumpAccum (a b c : Nibble)
  /-- PUSH_ACCUM, select 0x11, no instruction word (spec R54, R89); all fields ignored. -/
  | pushAccum (a b c : Nibble)
deriving DecidableEq, Repr

/-- Why the decoder refuses a byte string. A 16-bit word is never refused (spec R46); only a byte
string shorter than one word is. Safe: no step ever decodes fewer than the two slot bytes. -/
inductive DecodeRefusal where
  /-- Fewer than the two bytes of one instruction word (spec R48). -/
  | truncated
deriving DecidableEq, Repr

end Sys2Proof
end

