-- ==== Sys2Proof/WellFormed.lean ====
section
/-! DEFINITION. Which instructions an instruction word can select. The operand fields are nibbles and
every value of every field is accepted (spec R53), so the one check is that a word exists at all. -/

namespace Sys2Proof

/-- The instruction has an instruction word: all but DUMP_ACCUM and PUSH_ACCUM (spec R53, R54). -/
def Instr.wf : Instr → Bool
  | .halt _ _ _ => true
  | .loadImmediate _ _ _ => true
  | .nop2 _ _ _ => true
  | .dump _ _ _ => true
  | .add _ _ _ => true
  | .sub _ _ _ => true
  | .mult _ _ _ => true
  | .div _ _ _ => true
  | .and _ _ _ => true
  | .or _ _ _ => true
  | .not _ _ _ => true
  | .xor _ _ _ => true
  | .lshift _ _ _ => true
  | .rshift _ _ _ => true
  | .push _ _ _ => true
  | .pop _ _ _ => true
  | .dumpAccum _ _ _ => false
  | .pushAccum _ _ _ => false

end Sys2Proof
end

