-- ==== Sys2Proof/Decode.lean ====
section
/-! DEFINITION. Bytes and fields of a word, the decoder, and the encoder (spec/30_encoding.md). -/

namespace Sys2Proof

/-- The more significant byte `w[15:8]` (spec R45). -/
def hiByte (w : Word) : Byte := w.extractLsb' 8 8

/-- The less significant byte `w[7:0]` (spec R45). -/
def loByte (w : Word) : Byte := w.extractLsb' 0 8

/-- The 16-bit value `{hi, lo}`, that is `(hi << 8) | lo` (spec R7, R88). -/
def joinBytes (hi lo : Byte) : Word := hi.setWidth 16 <<< 8 ||| lo.setWidth 16

/-- `Decode(w)`: `op = w[15:12]`, `a = w[11:8]`, `b = w[7:4]`, `c = w[3:0]` (spec R46). -/
def fields (w : Word) : Fields where
  op := w.extractLsb' 12 4
  a := w.extractLsb' 8 4
  b := w.extractLsb' 4 4
  c := w.extractLsb' 0 4

/-- The word with the given fields, `(op << 12) | (a << 8) | (b << 4) | c` (spec R47). -/
def assemble (f : Fields) : Word :=
  f.op.setWidth 16 <<< 12 ||| f.a.setWidth 16 <<< 8 ||| f.b.setWidth 16 <<< 4 ||| f.c.setWidth 16

/-- The select the decoder drives, `zext_5(op)` (spec R52). -/
def opselOf (op : Nibble) : OpSel := op.setWidth 5

/-- The operation a select chooses, with its operand nibbles; an unassigned select chooses the no-op
(spec R53, R61, R65). -/
def select (sel : OpSel) (a b c : Nibble) : Instr :=
  match sel.toNat with
  | 0x00 => .halt a b c
  | 0x01 => .loadImmediate a b c
  | 0x02 => .nop2 a b c
  | 0x03 => .dump a b c
  | 0x04 => .add a b c
  | 0x05 => .sub a b c
  | 0x06 => .mult a b c
  | 0x07 => .div a b c
  | 0x08 => .and a b c
  | 0x09 => .or a b c
  | 0x0A => .not a b c
  | 0x0B => .xor a b c
  | 0x0C => .lshift a b c
  | 0x0D => .rshift a b c
  | 0x0E => .push a b c
  | 0x0F => .pop a b c
  | 0x10 => .dumpAccum a b c
  | 0x11 => .pushAccum a b c
  | _ => .nop2 a b c

/-- The instruction of a word; it never fails (spec R46, R52, R53). -/
def decode (w : Word) : Instr :=
  select (opselOf (fields w).op) (fields w).a (fields w).b (fields w).c

/-- The instruction at the front of a byte string, high byte first (spec R32), and the bytes after it. -/
def decodeBytes : List Byte → Except DecodeRefusal (Instr × List Byte)
  | hi :: lo :: rest => .ok (decode (joinBytes hi lo), rest)
  | _ => .error .truncated

/-- The word of an instruction; none for the two operations that no word selects (spec R53, R54). -/
def encode : Instr → Option Word
  | .halt a b c => some (assemble ⟨0x0#4, a, b, c⟩)
  | .loadImmediate a b c => some (assemble ⟨0x1#4, a, b, c⟩)
  | .nop2 a b c => some (assemble ⟨0x2#4, a, b, c⟩)
  | .dump a b c => some (assemble ⟨0x3#4, a, b, c⟩)
  | .add a b c => some (assemble ⟨0x4#4, a, b, c⟩)
  | .sub a b c => some (assemble ⟨0x5#4, a, b, c⟩)
  | .mult a b c => some (assemble ⟨0x6#4, a, b, c⟩)
  | .div a b c => some (assemble ⟨0x7#4, a, b, c⟩)
  | .and a b c => some (assemble ⟨0x8#4, a, b, c⟩)
  | .or a b c => some (assemble ⟨0x9#4, a, b, c⟩)
  | .not a b c => some (assemble ⟨0xA#4, a, b, c⟩)
  | .xor a b c => some (assemble ⟨0xB#4, a, b, c⟩)
  | .lshift a b c => some (assemble ⟨0xC#4, a, b, c⟩)
  | .rshift a b c => some (assemble ⟨0xD#4, a, b, c⟩)
  | .push a b c => some (assemble ⟨0xE#4, a, b, c⟩)
  | .pop a b c => some (assemble ⟨0xF#4, a, b, c⟩)
  | .dumpAccum _ _ _ => none
  | .pushAccum _ _ _ => none

/-- The word whose low `nbits` bits are those of `w`, every other bit 0 (the opcode table's numbering). -/
def tableWord (nbits w : Nat) : Word := BitVec.ofNat 16 (w % 2 ^ nbits)

/-- What the decoder reads from a row's word of the opcode table; every row is one 16-bit word (spec
R48), so more bits are refused. -/
def decodeTableWord (nbits w : Nat) : Option Instr :=
  if nbits ≤ 16 then
    match decodeBytes [hiByte (tableWord nbits w), loByte (tableWord nbits w)] with
    | .ok (i, _) => some i
    | .error _ => none
  else none

end Sys2Proof
end

