-- ==== Sys2Proof/Machine/Memory.lean ====
section
/-! DEFINITION. Reading and writing one byte of memory, keeping the canonical form (spec R24, R40). -/

namespace Sys2Proof.Machine

/-- What an address that is not listed reads as: the reset content (spec R26). -/
def Memory.unlisted : Byte := 0x00#8

/-- `mem[n]` (spec R8): the listed byte, or the reset content. -/
def Memory.read (n : Nat) : Memory → Byte
  | [] => Memory.unlisted
  | (k, v) :: m => if k = n then v else Memory.read n m

/-- The memory without address `n`. -/
def Memory.erase (n : Nat) (m : Memory) : Memory := m.filter fun cell => cell.1 ≠ n

/-- The memory with `n` listed before the first larger address. -/
def Memory.insert (n : Nat) (b : Byte) : Memory → Memory
  | [] => [(n, b)]
  | (k, v) :: m => if n < k then (n, b) :: (k, v) :: m else (k, v) :: Memory.insert n b m

/-- `mem[n] <- b` (spec R8, R40). -/
def Memory.write (n : Nat) (b : Byte) (m : Memory) : Memory :=
  if b = Memory.unlisted then Memory.erase n m else Memory.insert n b (Memory.erase n m)

/-- The canonical form: legal addresses, strictly rising, and no byte that an unlisted address reads as. -/
def Memory.wf : Memory → Bool
  | [] => true
  | (k, v) :: m =>
    decide (k ≤ Config.maxAddress) && decide (v ≠ Memory.unlisted)
      && m.all (fun cell => decide (k < cell.1)) && Memory.wf m

end Sys2Proof.Machine
end

