-- ==== Sys2Proof/Machine/Operands.lean ====
section
/-! DEFINITION. The operand forms: a register selected by a nibble, the immediate or address of two
nibbles, and the shift count (spec R49, R50, R51). -/

namespace Sys2Proof.Machine

/-- `x[i]`: the register a nibble selects; every nibble selects one (spec R11, R49). -/
def State.reg (s : State) (i : Nibble) : Word := s.regs[i.toNat]'i.isLt

/-- `x[i] <- v`; no register is hardwired (spec R8, R11). -/
def State.setReg (s : State) (i : Nibble) (v : Word) : State :=
  { s with regs := s.regs.set i.toNat v i.isLt }

/-- `(b << 8) | c`, that is `{0b0000, b, 0b0000, c}`: the immediate of LOAD_IMMEDIATE and the address
of DUMP and DUMP_ACCUM (spec R50). -/
def immediate (b c : Nibble) : Word := b.setWidth 16 <<< 8 ||| c.setWidth 16

/-- The memory address `m` of DUMP and DUMP_ACCUM (spec R29, R50). -/
def memAddress (b c : Nibble) : Nat := (immediate b c).toNat

/-- The shift count is the field itself, 0 to 15, never a register (spec R51). -/
def shiftCount (b : Nibble) : Nat := b.toNat

end Sys2Proof.Machine
end

