-- ==== Sys2Proof/Machine/Ops.lean ====
section
/-! DEFINITION. The operations every meaning is built from: two-byte accesses with their range checks,
the stack, ending a step with Ok, taking an exception, and lines 4 to 6 of the step (spec R58). -/

namespace Sys2Proof.Machine

/-- The 2-bit code of a status: 0 Ok, 1 DivisionByZero, 2 OutOfRange; 3 is never produced (spec R94). -/
def Status.code : Status → BitVec 2
  | .ok => 0#2
  | .divisionByZero => 1#2
  | .outOfRange => 2#2

/-- The status a raised exception ends its step with (spec R101). -/
def Exception.status : Exception → Status
  | .divisionByZero => .divisionByZero
  | .outOfRange => .outOfRange

/-- `InRange(n)` on a natural number (spec R8). -/
def inRange (n : Nat) : Bool := decide (n ≤ Config.maxAddress)

/-- `MemRead(n, 2)`: the byte at the lower address is the more significant (spec R8). -/
def State.memRead2 (s : State) (n : Nat) : Word := joinBytes (s.mem.read n) (s.mem.read (n + 1))

/-- `MemWrite(n, 2, v)`, big-endian (spec R8). -/
def State.memWrite2 (s : State) (n : Nat) (v : Word) : State :=
  { s with mem := (s.mem.write n (hiByte v)).write (n + 1) (loByte v) }

/-- A checked two-byte store: both addresses are checked before either byte is written (spec R38). The
slot write (R59), DUMP (R70) and DUMP_ACCUM (R71). -/
def storeWord (n : Nat) (v : Word) (s : State) : Except Exception State :=
  if inRange n && inRange (n + 1) then .ok (s.memWrite2 n v) else .error .outOfRange

/-- The lower address of the two bytes a push writes: `sp - 1`, with `sp` before the push (spec R34). -/
def pushAddress (s : State) : Nat := s.sp.toNat - 1

/-- A push of `v`: rejected exactly when `sp < 2`; else the low byte to `[sp]`, the high byte to
`[sp - 1]`, and `sp <- sp - 2` (spec R87, R89; decisions D8, D24, log entries 10, 17). -/
def pushWord (v : Word) (s : State) : Except Exception State :=
  if s.sp.toNat < 2 then .error .outOfRange
  else .ok { s.memWrite2 (pushAddress s) v with sp := s.sp - 2#16 }

/-- The value a pop reads: `{mem[sp + 2], mem[sp + 1]}`, the byte at the lower address being the less
significant (spec R35, R88; decision D11, log entry 9). -/
def popValue (s : State) : Word :=
  joinBytes (s.mem.read (s.sp.toNat + 2)) (s.mem.read (s.sp.toNat + 1))

/-- A pop into register `i`: rejected exactly when `sp > 65533`; else the register is written and
`sp <- sp + 2` (spec R88; decision D9, log entry 10). -/
def popWord (i : Nibble) (s : State) : Except Exception State :=
  if s.sp.toNat > 65533 then .error .outOfRange
  else .ok { s.setReg i (popValue s) with sp := s.sp + 2#16 }

/-- `acc <- v`, all 16 bits (spec R14). -/
def State.setAcc (s : State) (v : Word) : State := { s with acc := v }

/-- The end of a step that returns Ok: `ip <- ip + 2` (spec R63), status Ok (spec R94). -/
def complete (s : State) : State := { s with ip := s.ip + 2#17, status := some .ok }

/-- Taking an exception: the step ends with its status and nothing else changes; `ip` is not advanced,
nothing is saved, no mode changes and control goes nowhere (spec R62, R104, R109; decision D7, log
entry 8). There is no return from it: the next step is an ordinary step (spec R110). -/
def takeException (e : Exception) (s : State) : State := { s with status := some e.status }

/-- Lines 4 to 6 of the step (spec R58) for the operation selected: while halted only the advance
(R60); otherwise the operation, then the advance (R63), or the exception it raises (R62). -/
def runOperation (operation : State → Except Exception State) (s : State) :
    Host.Outcome State Fault Refusal :=
  if s.halted then .next (complete s)
  else
    match operation s with
    | .ok t => .next (complete t)
    | .error e => .next (takeException e s)

end Sys2Proof.Machine
end

