-- ==== Sys2Proof/Machine/Arithmetic.lean ====
section
/-! DEFINITION. ADD, SUB, MULT and DIV (spec/42_arithmetic.md); the field `c` is ignored (spec R72). -/

namespace Sys2Proof.Machine

/-- ADD: `acc <- (x[a] + x[b]) mod 65536` (spec R73). -/
def execAdd (a b _c : Nibble) (s : State) : Host.Outcome State Fault Refusal :=
  runOperation (fun s => .ok (s.setAcc (aluAdd (s.reg a) (s.reg b)))) s

/-- SUB: `acc <- (x[a] - x[b]) mod 65536` (spec R74). -/
def execSub (a b _c : Nibble) (s : State) : Host.Outcome State Fault Refusal :=
  runOperation (fun s => .ok (s.setAcc (aluSub (s.reg a) (s.reg b)))) s

/-- MULT: `acc <- (x[a] * x[b]) mod 65536` (spec R75). -/
def execMult (a b _c : Nibble) (s : State) : Host.Outcome State Fault Refusal :=
  runOperation (fun s => .ok (s.setAcc (aluMult (s.reg a) (s.reg b)))) s

/-- DIV: DivisionByZero exactly when `x[b] = 0`, else `acc <- x[a] // x[b]` (spec R76, R102). -/
def execDiv (a b _c : Nibble) (s : State) : Host.Outcome State Fault Refusal :=
  runOperation
    (fun s =>
      if s.reg b = 0#16 then .error .divisionByZero
      else .ok (s.setAcc (aluDiv (s.reg a) (s.reg b)))) s

end Sys2Proof.Machine
end

