-- ==== Sys2Proof/Machine/Control.lean ====
section
/-! DEFINITION. HALT and the no-op (spec R64, R65). There is no control transfer (spec R67). -/

namespace Sys2Proof.Machine

/-- HALT: `halted <- true`; the fields are ignored (spec R64). -/
def execHalt (_a _b _c : Nibble) (s : State) : Host.Outcome State Fault Refusal :=
  runOperation (fun s => .ok { s with halted := true }) s

/-- NOP2: nothing; the fields are ignored (spec R65). -/
def execNop2 (_a _b _c : Nibble) (s : State) : Host.Outcome State Fault Refusal :=
  runOperation (fun s => .ok s) s

end Sys2Proof.Machine
end

