-- ==== Sys2Proof/Machine/DataMovement.lean ====
section
/-! DEFINITION. LOAD_IMMEDIATE, DUMP and DUMP_ACCUM (spec/41_data_movement.md). -/

namespace Sys2Proof.Machine

/-- LOAD_IMMEDIATE: `x[a] <- (b << 8) | c` (spec R69). -/
def execLoadImmediate (a b c : Nibble) (s : State) : Host.Outcome State Fault Refusal :=
  runOperation (fun s => .ok (s.setReg a (immediate b c))) s

/-- DUMP: `x[a]` to the two bytes at `(b << 8) | c`, big-endian, range-checked (spec R70). -/
def execDump (a b c : Nibble) (s : State) : Host.Outcome State Fault Refusal :=
  runOperation (fun s => storeWord (memAddress b c) (s.reg a) s) s

/-- DUMP_ACCUM: `acc` to the two bytes at `(b << 8) | c`, as DUMP; `a` is ignored (spec R71). -/
def execDumpAccum (_a b c : Nibble) (s : State) : Host.Outcome State Fault Refusal :=
  runOperation (fun s => storeWord (memAddress b c) s.acc s) s

end Sys2Proof.Machine
end

