-- ==== Sys2Proof/Machine/Logic.lean ====
section
/-! DEFINITION. AND, OR, NOT and XOR (spec/43_logic.md); the field `c` is ignored, by NOT also `b`
(spec R78). -/

namespace Sys2Proof.Machine

/-- AND: `acc <- x[a] & x[b]` (spec R79). -/
def execAnd (a b _c : Nibble) (s : State) : Host.Outcome State Fault Refusal :=
  runOperation (fun s => .ok (s.setAcc (aluAnd (s.reg a) (s.reg b)))) s

/-- OR: `acc <- x[a] | x[b]` (spec R80). -/
def execOr (a b _c : Nibble) (s : State) : Host.Outcome State Fault Refusal :=
  runOperation (fun s => .ok (s.setAcc (aluOr (s.reg a) (s.reg b)))) s

/-- NOT: `acc <- ~x[a]` (spec R81). -/
def execNot (a _b _c : Nibble) (s : State) : Host.Outcome State Fault Refusal :=
  runOperation (fun s => .ok (s.setAcc (aluNot (s.reg a)))) s

/-- XOR: `acc <- x[a] ^ x[b]` (spec R82). -/
def execXor (a b _c : Nibble) (s : State) : Host.Outcome State Fault Refusal :=
  runOperation (fun s => .ok (s.setAcc (aluXor (s.reg a) (s.reg b)))) s

end Sys2Proof.Machine
end

