-- ==== Sys2Proof/Machine/Shift.lean ====
section
/-! DEFINITION. LSHIFT and RSHIFT by the constant in the field `b` (spec/44_shift.md); the field `c`
is ignored (spec R83). -/

namespace Sys2Proof.Machine

/-- LSHIFT: `acc <- (x[a] * 2^b) mod 65536` (spec R84). -/
def execLshift (a b _c : Nibble) (s : State) : Host.Outcome State Fault Refusal :=
  runOperation (fun s => .ok (s.setAcc (aluLshift (s.reg a) (shiftCount b)))) s

/-- RSHIFT: `acc <- x[a] // 2^b` (spec R85). -/
def execRshift (a b _c : Nibble) (s : State) : Host.Outcome State Fault Refusal :=
  runOperation (fun s => .ok (s.setAcc (aluRshift (s.reg a) (shiftCount b)))) s

end Sys2Proof.Machine
end

