-- ==== Sys2Proof/Machine/Stack.lean ====
section
/-! DEFINITION. PUSH, POP and PUSH_ACCUM (spec/45_stack.md); the fields `b`, `c` are ignored, by
PUSH_ACCUM also `a` (spec R86). -/

namespace Sys2Proof.Machine

/-- PUSH: `x[a]` below the stack pointer (spec R87). -/
def execPush (a _b _c : Nibble) (s : State) : Host.Outcome State Fault Refusal :=
  runOperation (fun s => pushWord (s.reg a) s) s

/-- POP: the entry above the stack pointer into `x[a]` (spec R88). -/
def execPop (a _b _c : Nibble) (s : State) : Host.Outcome State Fault Refusal :=
  runOperation (fun s => popWord a s) s

/-- PUSH_ACCUM: `acc` below the stack pointer (spec R89). -/
def execPushAccum (_a _b _c : Nibble) (s : State) : Host.Outcome State Fault Refusal :=
  runOperation (fun s => pushWord s.acc s) s

end Sys2Proof.Machine
end

