-- ==== Sys2Proof/Machine/Dispatch.lean ====
section
/-! DEFINITION. One arm per instruction. `exec` performs lines 4 to 6 of the step (spec R58), without
a slot write: it is the execution stage, and the entry of spec R100 for the two operations that no
instruction word selects. -/

namespace Sys2Proof.Machine

def exec (i : Instr) (s : State) : Host.Outcome State Fault Refusal :=
  match i with
  | .halt a b c => Sys2Proof.Machine.execHalt a b c s
  | .loadImmediate a b c => Sys2Proof.Machine.execLoadImmediate a b c s
  | .nop2 a b c => Sys2Proof.Machine.execNop2 a b c s
  | .dump a b c => Sys2Proof.Machine.execDump a b c s
  | .add a b c => Sys2Proof.Machine.execAdd a b c s
  | .sub a b c => Sys2Proof.Machine.execSub a b c s
  | .mult a b c => Sys2Proof.Machine.execMult a b c s
  | .div a b c => Sys2Proof.Machine.execDiv a b c s
  | .and a b c => Sys2Proof.Machine.execAnd a b c s
  | .or a b c => Sys2Proof.Machine.execOr a b c s
  | .not a b c => Sys2Proof.Machine.execNot a b c s
  | .xor a b c => Sys2Proof.Machine.execXor a b c s
  | .lshift a b c => Sys2Proof.Machine.execLshift a b c s
  | .rshift a b c => Sys2Proof.Machine.execRshift a b c s
  | .push a b c => Sys2Proof.Machine.execPush a b c s
  | .pop a b c => Sys2Proof.Machine.execPop a b c s
  | .dumpAccum a b c => Sys2Proof.Machine.execDumpAccum a b c s
  | .pushAccum a b c => Sys2Proof.Machine.execPushAccum a b c s

end Sys2Proof.Machine
end

