-- ==== Sys2Proof/Machine/Fetch.lean ====
section
/-! DEFINITION. Taking the next input: a reset event, or a delivered word written to the instruction
slot and decoded from it, lines 1 to 3 of the step (spec R58, R92, R93). -/

namespace Sys2Proof.Machine

/-- What taking the next input leaves: nothing more to do in state `s`, or instruction `i` to execute
in state `s`. -/
inductive Fetched where
  | settled (s : State)
  | run (i : Instr) (s : State)
deriving DecidableEq, Repr

/-- A reset event: every piece of state at its reset value; what the outside still has to present is
not the core's (spec R92; log entry 4). -/
def acceptReset (rest : List Input) : State := { State.reset with inputs := rest }

/-- The slot write, halted or not: the delivered word at `ip`, `ip + 1`, high byte first; rejected if
the slot is not wholly inside memory (spec R32, R59). -/
def slotWrite (w : Word) (s : State) : Except Exception State := storeWord s.ip.toNat w s

/-- The instruction decoded from the slot (spec R58, line 3). -/
def slotInstr (s : State) : Instr := decode (s.memRead2 s.ip.toNat)

/-- Taking the next input. With none the core does nothing on its own (spec R93; log entry 3). -/
def fetch (s : State) : Fetched :=
  match s.inputs with
  | [] => .settled s
  | .reset :: rest => .settled (acceptReset rest)
  | .word w :: rest =>
    match slotWrite w { s with inputs := rest } with
    | .ok t => .run (slotInstr t) t
    | .error e => .settled (takeException e { s with inputs := rest })

end Sys2Proof.Machine
end

