-- ==== Sys2Proof/Machine/Step.lean ====
section
/-! DEFINITION. One step: the next input is taken, and the instruction it delivers is executed (spec
R58). -/

namespace Sys2Proof.Machine

/-- One step of the machine: `Step(w)` of spec R58 for the word next in `inputs`, a reset event (spec
R92), or nothing when nothing is requested (spec R93). -/
def step (s : State) : Host.Outcome State Fault Refusal :=
  match fetch s with
  | .settled t => .next t
  | .run i t => exec i t

/-- The state in which the word is the next to be delivered on the step port: the core fetches no
stored program (spec R44), so this is the whole of what a fetch needs (log entry 1). -/
def State.withFetchWord (s : State) (nbits w : Nat) : State :=
  { s with inputs := .word (tableWord nbits w) :: s.inputs }

/-- The test-only entry to the execution stage with a given select, bypassing the decoder: lines 4 to
6 of the step with no slot write (spec R100; log entry 16). -/
def executionStage (sel : OpSel) (a b c : Nibble) (s : State) : Host.Outcome State Fault Refusal :=
  exec (select sel a b c) s

end Sys2Proof.Machine
end

