-- ==== Sys2Proof/Machine/Observation.lean ====
section
/-! DEFINITION. The observation port: a read-only snapshot of all state, in the content and order of
spec R97 and R98. The characters of the report are out of scope (spec R4, R98). -/

namespace Sys2Proof.Machine

/-- The content of one observation, in the report's order (spec R98). -/
structure Observation where
  /-- The sixteen registers with their letters. -/
  registers : List (Char × Word)
  accumulator : Word
  instructionPointer : InstrPtr
  stackPointer : Word
  /-- The status line: whether the core is halted (spec R97). -/
  halted : Bool
  /-- The memory cells that are not zero, by rising address. -/
  memory : List Host.Cell
deriving DecidableEq, Repr

/-- The letters A to P: A names `x[0]` and P names `x[15]` (spec R12; decision D23, log entry 18). -/
def registerLetters : List Char :=
  ['A', 'B', 'C', 'D', 'E', 'F', 'G', 'H', 'I', 'J', 'K', 'L', 'M', 'N', 'O', 'P']

/-- The snapshot of a state (spec R97). The canonical memory lists exactly the cells that are not zero,
by rising address. -/
def observe (s : State) : Observation where
  registers := registerLetters.zip s.regs.toList
  accumulator := s.acc
  instructionPointer := s.ip
  stackPointer := s.sp
  halted := s.halted
  memory := s.mem

end Sys2Proof.Machine
end

