-- ==== Sys2Proof/Machine/Requests.lean ====
section
/-! DEFINITION. The requesters' side of the step port: how several requesters' words become one
sequence (spec R96), and how a request's text spells a word (spec R99). Neither is inside the core. -/

namespace Sys2Proof.Machine

/-- `Interleaving xs ys zs`: `zs` is an order in which the arbiter may deliver one requester's words
`xs` and another's `ys`: each keeps its own order, and every request is served (spec R96). -/
inductive Interleaving : List Word → List Word → List Word → Prop where
  | done : Interleaving [] [] []
  | first (w : Word) {xs ys zs : List Word} (h : Interleaving xs ys zs) :
      Interleaving (w :: xs) ys (w :: zs)
  | second (w : Word) {xs ys zs : List Word} (h : Interleaving xs ys zs) :
      Interleaving xs (w :: ys) (w :: zs)

/-- The value of a decimal digit's character code. -/
def decimalDigit (b : Byte) : Option Nat :=
  if 48 ≤ b.toNat ∧ b.toNat ≤ 57 then some (b.toNat - 48) else none

/-- The value of a hexadecimal digit's character code, in either case (log entry 22). -/
def hexDigit (b : Byte) : Option Nat :=
  if 48 ≤ b.toNat ∧ b.toNat ≤ 57 then some (b.toNat - 48)
  else if 65 ≤ b.toNat ∧ b.toNat ≤ 70 then some (b.toNat - 55)
  else if 97 ≤ b.toNat ∧ b.toNat ≤ 102 then some (b.toNat - 87)
  else none

/-- The number a string of digits spells after `n`, most significant digit first. -/
def parseDigits (digit : Byte → Option Nat) (base : Nat) : Nat → List Byte → Option Nat
  | n, [] => some n
  | n, b :: bs =>
    match digit b with
    | some d => parseDigits digit base (base * n + d) bs
    | none => none

/-- A number of one or more digits; an empty string is no number (log entry 22). -/
def parseNumber (digit : Byte → Option Nat) (base : Nat) (bs : List Byte) : Option Nat :=
  if bs.isEmpty then none else parseDigits digit base 0 bs

/-- A request text's number: hexadecimal after `0x` or `0X`, else decimal (spec R99). -/
def parseText : List Byte → Option Nat
  | 48#8 :: 120#8 :: bs => parseNumber hexDigit 16 bs
  | 48#8 :: 88#8 :: bs => parseNumber hexDigit 16 bs
  | bs => parseNumber decimalDigit 10 bs

/-- The word a request text delivers, or none where it is rejected before the core is touched: not
valid digits, or outside 0 to 65535 (spec R99). -/
def parseRequest (bs : List Byte) : Option Word :=
  match parseText bs with
  | some n => if n ≤ 65535 then some (BitVec.ofNat 16 n) else none
  | none => none

end Sys2Proof.Machine
end

