-- ==== Sys2Proof/Safety.lean ====
section
/-! DEFINITION. The terms in which claims speak of the machine: the invariant, what a step leaves
unchanged, where an instruction stores, and runs of submitted words (spec R68). -/

namespace Sys2Proof.Machine

/-- What every reachable state satisfies: the memory in canonical form, `ip` even and at most 65536
(spec R17, R18), `sp` odd (spec R20). -/
abbrev State.Inv (s : State) : Prop :=
  Memory.wf s.mem = true ∧ s.ip.toNat % 2 = 0 ∧ s.ip.toNat ≤ 65536 ∧ s.sp.toNat % 2 = 1

/-- Every general register of `t` is as in `s`. -/
def SameRegs (s t : State) : Prop := ∀ r : Nibble, t.reg r = s.reg r

/-- Every general register of `t` but `d` is as in `s`. -/
def SameRegsExcept (d : Nibble) (s t : State) : Prop := ∀ r : Nibble, r ≠ d → t.reg r = s.reg r

/-- Every byte of memory reads in `t` as in `s`. -/
def SameMemory (s t : State) : Prop := ∀ n : Nat, t.mem.read n = s.mem.read n

/-- Every byte of memory outside the two bytes at `m` reads in `t` as in `s`. -/
def SameMemoryOutside (m : Nat) (s t : State) : Prop :=
  ∀ n : Nat, n ≠ m → n ≠ m + 1 → t.mem.read n = s.mem.read n

/-- The two bytes at `m` hold `v` in `t`, high byte first (spec R33, R34). -/
def HoldsWord (m : Nat) (v : Word) (t : State) : Prop :=
  t.mem.read m = hiByte v ∧ t.mem.read (m + 1) = loByte v

/-- The step from `s` ended with Ok in `t`: the status says so, `ip` moved by 2 (spec R63), and the
requests still to come are as before. The sum is modulo 2^17: for an instruction run alone (spec R100)
with `ip` at 65536 or more it is the model's choice (log entry 7). -/
def EndedOk (s t : State) : Prop :=
  t.status = some .ok ∧ t.ip = s.ip + 2#17 ∧ t.inputs = s.inputs

/-- From `s` to `t` an instruction ended with Ok and wrote nothing but `acc`: no register, not `sp`,
not `halted`, no byte of memory (spec R72, R78, R83). -/
def WroteOnlyAcc (s t : State) : Prop :=
  EndedOk s t ∧ SameRegs s t ∧ t.sp = s.sp ∧ t.halted = s.halted ∧ SameMemory s t

/-- From `s` to `t` nothing changed but the status output, which is now that of `e`: `ip` is not
advanced (spec R62). -/
def OnlyFaulted (e : Exception) (s t : State) : Prop :=
  t.status = some e.status ∧ SameRegs s t ∧ t.acc = s.acc ∧ t.ip = s.ip ∧ t.sp = s.sp ∧
    t.halted = s.halted ∧ SameMemory s t ∧ t.inputs = s.inputs

/-- The lower address of the two bytes an instruction stores to when it is executed in `s`, if it
stores (spec R28). -/
def storeAddress (i : Instr) (s : State) : Option Nat :=
  match i with
  | .halt _ _ _ => none
  | .loadImmediate _ _ _ => none
  | .nop2 _ _ _ => none
  | .dump _ b c => some (memAddress b c)
  | .add _ _ _ => none
  | .sub _ _ _ => none
  | .mult _ _ _ => none
  | .div _ _ _ => none
  | .and _ _ _ => none
  | .or _ _ _ => none
  | .not _ _ _ => none
  | .xor _ _ _ => none
  | .lshift _ _ _ => none
  | .rshift _ _ _ => none
  | .push _ _ _ => some (pushAddress s)
  | .pop _ _ _ => none
  | .dumpAccum _ b c => some (memAddress b c)
  | .pushAccum _ _ _ => some (pushAddress s)

/-- One step transaction with nothing else presented (spec R93). -/
def submit (w : Word) (s : State) : Host.Outcome State Fault Refusal :=
  step { s with inputs := [.word w] }

/-- The run of a program: the words submitted one after another (spec R68). -/
def runWords : List Word → State → Host.Outcome State Fault Refusal
  | [], s => .next s
  | w :: ws, s =>
    match submit w s with
    | .next t => runWords ws t
    | .fault r => .fault r
    | .refused r => .refused r

/-- How many steps of a run end with Ok. -/
def okSteps : List Word → State → Nat
  | [], _ => 0
  | w :: ws, s =>
    match submit w s with
    | .next t => (if t.status = some .ok then 1 else 0) + okSteps ws t
    | .fault _ => 0
    | .refused _ => 0

/-- The character code of a hexadecimal digit, in capitals (spec R99). -/
def hexCharacter (d : Nibble) : Byte :=
  if d.toNat ≤ 9 then BitVec.ofNat 8 (48 + d.toNat) else BitVec.ofNat 8 (55 + d.toNat)

end Sys2Proof.Machine
end

