-- ==== Sys2Proof/Certificates/Slice0/Obligations.lean ====
section
/-! DEFINITION. The statements for the provers. An instruction's own statement has three parts: its
encoding, that `exec` answers a next state for every operand and state named, and what that state
holds and leaves unchanged. `exec` is lines 4 to 6 of the step (spec R58); the slot write before it is
in `StepRunsTheDecodedInstruction`. Where the text says "decision D<n>", the clause rests on a
decision the spec marks as its own, and names the log entry. Every statement about `exec` holds at
every `ip`: at 65536 and above, where no step executes an instruction, `ip + 2` is log entry 7's sum
modulo 2^17 (DESIGN CHOICE). -/

open Sys2Proof Sys2Proof.Machine

/-! ### Encoding -/

/-- Spec R46: `op = (w >> 12) & 0xF` and so on, and the same as bit ranges. -/
def Obligations.FieldsAreTheFourNibblesOfTheWord : Prop :=
  ∀ w : Word,
    (fields w).op.setWidth 16 = (w >>> 12 &&& 0xF#16) ∧
    (fields w).a.setWidth 16 = (w >>> 8 &&& 0xF#16) ∧
    (fields w).b.setWidth 16 = (w >>> 4 &&& 0xF#16) ∧
    (fields w).c.setWidth 16 = (w &&& 0xF#16) ∧
    ∀ i : Nat, i < 4 →
      (fields w).op.getLsbD i = w.getLsbD (12 + i) ∧ (fields w).a.getLsbD i = w.getLsbD (8 + i) ∧
      (fields w).b.getLsbD i = w.getLsbD (4 + i) ∧ (fields w).c.getLsbD i = w.getLsbD i

/-- Spec R47: for all words, decoding then reassembling reproduces the word, and the fields of a
reassembled word are the fields it was made of, so `Decode` is a bijection. -/
def Obligations.DecodedNibblesReassembleToTheWord : Prop :=
  (∀ v : Word,
    ((fields v).op.setWidth 16 <<< 12 ||| (fields v).a.setWidth 16 <<< 8 |||
      (fields v).b.setWidth 16 <<< 4 ||| (fields v).c.setWidth 16) = v) ∧
  (∀ v : Word, assemble (fields v) = v) ∧
  ∀ f : Fields, fields (assemble f) = f

/-- Spec R53: a word is an instruction exactly when `w & 0xF000` is its match, with the operand nibbles
of the word; the selects 0x10 and 0x11 choose DUMP_ACCUM and PUSH_ACCUM; 0x12 to 0x1F the no-op. The
selects no word drives are decision D2 (log entry 16). -/
def Obligations.MatchAndMaskSelectTheInstruction : Prop :=
  (∀ (w : Word) (a b c : Nibble), (fields w).a = a → (fields w).b = b → (fields w).c = c →
    ((w &&& 0xF000#16) = 0x0000#16 ↔ decode w = .halt a b c) ∧
    ((w &&& 0xF000#16) = 0x1000#16 ↔ decode w = .loadImmediate a b c) ∧
    ((w &&& 0xF000#16) = 0x2000#16 ↔ decode w = .nop2 a b c) ∧
    ((w &&& 0xF000#16) = 0x3000#16 ↔ decode w = .dump a b c) ∧
    ((w &&& 0xF000#16) = 0x4000#16 ↔ decode w = .add a b c) ∧
    ((w &&& 0xF000#16) = 0x5000#16 ↔ decode w = .sub a b c) ∧
    ((w &&& 0xF000#16) = 0x6000#16 ↔ decode w = .mult a b c) ∧
    ((w &&& 0xF000#16) = 0x7000#16 ↔ decode w = .div a b c) ∧
    ((w &&& 0xF000#16) = 0x8000#16 ↔ decode w = .and a b c) ∧
    ((w &&& 0xF000#16) = 0x9000#16 ↔ decode w = .or a b c) ∧
    ((w &&& 0xF000#16) = 0xA000#16 ↔ decode w = .not a b c) ∧
    ((w &&& 0xF000#16) = 0xB000#16 ↔ decode w = .xor a b c) ∧
    ((w &&& 0xF000#16) = 0xC000#16 ↔ decode w = .lshift a b c) ∧
    ((w &&& 0xF000#16) = 0xD000#16 ↔ decode w = .rshift a b c) ∧
    ((w &&& 0xF000#16) = 0xE000#16 ↔ decode w = .push a b c) ∧
    ((w &&& 0xF000#16) = 0xF000#16 ↔ decode w = .pop a b c)) ∧
  ∀ (sel : OpSel) (a b c : Nibble),
    (sel = 0x10#5 → select sel a b c = .dumpAccum a b c) ∧
    (sel = 0x11#5 → select sel a b c = .pushAccum a b c) ∧
    (0x12 ≤ sel.toNat → select sel a b c = .nop2 a b c)

/-- No word selects DUMP_ACCUM or PUSH_ACCUM: decision D2 (log entry 16). -/
def Obligations.NoWordSelectsTheAccumulatorStores : Prop :=
  ∀ (w : Word) (a b c : Nibble), decode w ≠ .dumpAccum a b c ∧ decode w ≠ .pushAccum a b c

/-- Every well-formed instruction, with every operand, has a word, and the word decodes to it. -/
def Obligations.DecodeOfEncodeIsTheInstruction : Prop :=
  ∀ i : Instr, i.wf = true → ∃ w : Word, encode i = some w ∧ decode w = i

/-- Every word is the encoding of the instruction it decodes to: no two words are one instruction. -/
def Obligations.EncodeOfDecodeIsTheWord : Prop :=
  ∀ w : Word, (decode w).wf = true ∧ encode (decode w) = some w

/-- The immediate of LOAD_IMMEDIATE and the address of DUMP and DUMP_ACCUM, bit by bit (spec R50). -/
def Obligations.ImmediateIsTwoNibblesInTwoBytes : Prop :=
  ∀ b c : Nibble,
    immediate b c = (b.setWidth 16 <<< 8 ||| c.setWidth 16) ∧
    memAddress b c = (immediate b c).toNat ∧
    (immediate b c).toNat = 256 * b.toNat + c.toNat ∧ (immediate b c).toNat ≤ 0x0F0F ∧
    hiByte (immediate b c) = b.setWidth 8 ∧ loByte (immediate b c) = c.setWidth 8 ∧
    ∀ i : Nat, i < 4 →
      (immediate b c).getLsbD (12 + i) = false ∧ (immediate b c).getLsbD (8 + i) = b.getLsbD i ∧
      (immediate b c).getLsbD (4 + i) = false ∧ (immediate b c).getLsbD i = c.getLsbD i

/-- A field an instruction does not use changes nothing of what it does: decision D14 (log entry 13). -/
def Obligations.IgnoredFieldsChangeNothing : Prop :=
  ∀ (a b c a' b' c' : Nibble) (s : State),
    exec (.halt a b c) s = exec (.halt a' b' c') s ∧ exec (.nop2 a b c) s = exec (.nop2 a' b' c') s ∧
    exec (.add a b c) s = exec (.add a b c') s ∧ exec (.sub a b c) s = exec (.sub a b c') s ∧
    exec (.mult a b c) s = exec (.mult a b c') s ∧ exec (.div a b c) s = exec (.div a b c') s ∧
    exec (.and a b c) s = exec (.and a b c') s ∧ exec (.or a b c) s = exec (.or a b c') s ∧
    exec (.not a b c) s = exec (.not a b' c') s ∧ exec (.xor a b c) s = exec (.xor a b c') s ∧
    exec (.lshift a b c) s = exec (.lshift a b c') s ∧
    exec (.rshift a b c) s = exec (.rshift a b c') s ∧
    exec (.push a b c) s = exec (.push a b' c') s ∧ exec (.pop a b c) s = exec (.pop a b' c') s ∧
    exec (.dumpAccum a b c) s = exec (.dumpAccum a' b c) s ∧
    exec (.pushAccum a b c) s = exec (.pushAccum a' b' c') s

/-- Words of the spec's table V-dec decode as the table says. -/
def Obligations.WordsOfTheSpecDecodeAsListed : Prop :=
  decode 0x0FFF#16 = .halt 15 15 15 ∧ decode 0x17A0#16 = .loadImmediate 7 10 0 ∧
  decode 0x2FFF#16 = .nop2 15 15 15 ∧ decode 0x3104#16 = .dump 1 0 4 ∧
  decode 0x5120#16 = .sub 1 2 0 ∧ decode 0xA37C#16 = .not 3 7 12 ∧
  decode 0xD130#16 = .rshift 1 3 0 ∧ decode 0xE100#16 = .push 1 0 0 ∧ decode 0xF200#16 = .pop 2 0 0

/-- A request text of `0x` and the four hexadecimal digits of a word delivers that word (spec R99; that
capitals are digits is the model's reading, log entry 22). -/
def Obligations.FourHexadecimalDigitsSpellTheWord : Prop :=
  ∀ w : Word,
    parseRequest [48#8, 120#8, hexCharacter (fields w).op, hexCharacter (fields w).a,
      hexCharacter (fields w).b, hexCharacter (fields w).c] = some w

/-! ### Reset, and the step -/

/-- What the spec states of the reset state: every byte 0x00, `ip` 0, `sp` 65535, running. -/
def Obligations.ResetHoldsTheStatedValues : Prop :=
  (∀ n : Nat, n ≤ 65535 → State.reset.mem.read n = 0x00#8) ∧ State.reset.ip = 0#17 ∧
  State.reset.sp = 65535#16 ∧ State.reset.halted = false

/-- The reset values the spec decided itself: decisions D3 and D4 (log entry 5); and the model's own
interface fields (log entries 1 and 2). -/
def Obligations.ResetRegistersAndAccumulatorAreZero : Prop :=
  (∀ r : Nibble, State.reset.reg r = 0x0000#16) ∧ State.reset.acc = 0x0000#16 ∧
  State.reset.status = none ∧ State.reset.inputs = []

/-- A reset event puts every piece of state at its reset value, whatever the state: decision D1 (log
entry 4). -/
def Obligations.ResetEventRestoresTheResetState : Prop :=
  ∀ (s : State) (rest : List Input), s.inputs = .reset :: rest →
    step s = .next { State.reset with inputs := rest }

/-- Without a request the core does nothing (log entry 3). -/
def Obligations.NothingHappensWithoutARequest : Prop :=
  ∀ s : State, s.inputs = [] → step s = .next s

/-- A delivered word is written to the slot, high byte first, and the instruction it decodes to is
executed in the state that results. The order, slot before data, is decision D15 (log entry 14). -/
def Obligations.StepRunsTheDecodedInstruction : Prop :=
  ∀ (s : State) (w : Word) (rest : List Input),
    s.inputs = .word w :: rest → s.ip.toNat ≤ 65534 →
    ∃ u : State, step s = exec (decode w) u ∧
      HoldsWord s.ip.toNat w u ∧ SameMemoryOutside s.ip.toNat s u ∧
      u = { s with inputs := rest, mem := u.mem }

/-- A slot that is not wholly inside memory rejects every word, halted or not, and changes nothing but
the status: decision D5 (log entry 6). -/
def Obligations.SlotOutsideMemoryRejectsTheStep : Prop :=
  ∀ (s : State) (w : Word) (rest : List Input),
    s.inputs = .word w :: rest → 65534 < s.ip.toNat →
    step s = .next { s with inputs := rest, status := some .outOfRange }

/-- Every delivered word is answered: the step ends, takes that word and no other, and gives one of the
three statuses, whose code is never 3 (decision D16, log entry 19). -/
def Obligations.EveryWordIsAnsweredWithAStatus : Prop :=
  ∀ (s : State) (w : Word) (rest : List Input), s.inputs = .word w :: rest →
    ∃ (t : State) (st : Status),
      step s = .next t ∧ t.status = some st ∧ t.inputs = rest ∧ st.code ≠ 3#2

/-- Spec R63: a step that returns Ok moves `ip` up by 2, without wrapping (decision D5, log entry 6),
halted or not; nothing else changes `ip`, a fault neither (decision D7, log entry 8). The second clause
is about an instruction run alone (the entry of R100) at every `ip`: at 65536 and above, where the spec
names no legal value, that `ip` moves by 2 modulo 2^17, wrapping at 131070, is the model's choice
(log entry 7, DESIGN CHOICE). -/
def Obligations.OkStepsAndNothingElseAdvanceIp : Prop :=
  (∀ (s : State) (w : Word) (rest : List Input), s.inputs = .word w :: rest →
    ∃ t : State, step s = .next t ∧
      (t.status = some .ok → t.ip.toNat = s.ip.toNat + 2) ∧ (t.status ≠ some .ok → t.ip = s.ip)) ∧
  ∀ (i : Instr) (s : State), ∃ t : State, exec i s = .next t ∧
    (t.status = some .ok → t.ip = s.ip + 2#17) ∧ (t.status ≠ some .ok → t.ip = s.ip)

/-- While halted, an instruction advances `ip`, answers Ok, and does nothing else: no fault, no data
access (spec R60), whatever the instruction. At `ip` 65536 and above the sum modulo 2^17 is the model's
choice (log entry 7). -/
def Obligations.HaltedInstructionOnlyAdvances : Prop :=
  ∀ (i : Instr) (s : State), s.halted = true →
    exec i s = .next { s with ip := s.ip + 2#17, status := some .ok }

/-- While halted, a step writes its slot, advances `ip` and answers Ok, whatever the word: decision D19
(log entry 14). -/
def Obligations.HaltedStepWritesTheSlotAndAdvances : Prop :=
  ∀ (s : State) (w : Word) (rest : List Input),
    s.inputs = .word w :: rest → s.halted = true → s.ip.toNat ≤ 65534 →
    ∃ t : State, step s = .next t ∧ HoldsWord s.ip.toNat w t ∧ SameMemoryOutside s.ip.toNat s t ∧
      t = { s with inputs := rest, mem := t.mem, ip := s.ip + 2#17, status := some .ok }

/-- Spec R66: running at reset; HALT is the only way to halted, there is no way back but reset, and a
fault changes neither. The reset event is decision D1 (log entry 4); the step without an input is log
entry 3. -/
def Obligations.HaltIsTheOnlyTransition : Prop :=
  State.reset.halted = false ∧
  (∀ (s : State) (w : Word) (rest : List Input), s.inputs = .word w :: rest →
    ∃ t : State, step s = .next t ∧ (s.halted = true → t.halted = true) ∧
    (s.halted = false →
      (t.halted = true ↔ (t.status = some .ok ∧ ∃ a b c : Nibble, decode w = .halt a b c))) ∧
    (t.status ≠ some .ok → t.halted = s.halted)) ∧
  (∀ (s : State) (rest : List Input), s.inputs = .reset :: rest →
    ∃ t : State, step s = .next t ∧ t.halted = false) ∧
  ∀ s : State, s.inputs = [] → ∃ t : State, step s = .next t ∧ t.halted = s.halted

/-- A faulting step keeps the slot write and changes nothing else but the status: decision D7 (log
entry 8). -/
def Obligations.FaultKeepsAllButTheSlot : Prop :=
  ∀ (s t : State) (w : Word) (rest : List Input), s.inputs = .word w :: rest →
    s.ip.toNat ≤ 65534 → step s = .next t → t.status ≠ some .ok →
    HoldsWord s.ip.toNat w t ∧ SameMemoryOutside s.ip.toNat s t ∧ s.halted = false ∧
      t = { s with inputs := rest, mem := t.mem, status := t.status }

/-- A faulting word delivered a second time faults again and leaves the same state: decision D7 (log
entry 8). -/
def Obligations.RepeatedFaultLeavesTheSameState : Prop :=
  ∀ (s t : State) (w : Word), Memory.wf s.mem = true → submit w s = .next t →
    t.status ≠ some .ok → submit w t = .next t

/-- The frame of a step: a byte that is neither in the slot nor stored to by the instruction reads as
before. -/
def Obligations.StepWritesOnlySlotAndStoredBytes : Prop :=
  ∀ (s t : State) (w : Word) (rest : List Input) (n : Nat), s.inputs = .word w :: rest →
    step s = .next t → n ≠ s.ip.toNat → n ≠ s.ip.toNat + 1 →
    (∀ m : Nat, storeAddress (decode w) s = some m → n ≠ m ∧ n ≠ m + 1) →
    t.mem.read n = s.mem.read n

/-- A general register is written only by LOAD_IMMEDIATE and POP, and only the one they name. -/
def Obligations.OnlyLoadImmediateAndPopWriteRegisters : Prop :=
  ∀ (i : Instr) (s t : State) (r : Nibble), exec i s = .next t → t.reg r ≠ s.reg r →
    (∃ b c : Nibble, i = .loadImmediate r b c) ∨ (∃ b c : Nibble, i = .pop r b c)

/-- The accumulator is written only by the arithmetic, logic and shift instructions. -/
def Obligations.OnlyAluInstructionsWriteTheAccumulator : Prop :=
  ∀ (i : Instr) (s t : State), exec i s = .next t → t.acc ≠ s.acc →
    ∃ a b c : Nibble,
      i = .add a b c ∨ i = .sub a b c ∨ i = .mult a b c ∨ i = .div a b c ∨ i = .and a b c ∨
      i = .or a b c ∨ i = .not a b c ∨ i = .xor a b c ∨ i = .lshift a b c ∨ i = .rshift a b c

/-- The stack pointer moves only by an Ok PUSH or PUSH_ACCUM, down by 2, or an Ok POP, up by 2, and
never wraps: decisions D6, D8 and D9 (log entries 10 and 23). -/
def Obligations.OnlyStackInstructionsMoveTheStackPointer : Prop :=
  ∀ (i : Instr) (s t : State), exec i s = .next t → t.sp ≠ s.sp →
    t.status = some .ok ∧
    (((∃ a b c : Nibble, i = .push a b c ∨ i = .pushAccum a b c) ∧ t.sp.toNat + 2 = s.sp.toNat) ∨
      ((∃ a b c : Nibble, i = .pop a b c) ∧ t.sp.toNat = s.sp.toNat + 2))

/-! ### The invariant -/

/-- The reset state satisfies the invariant. -/
def Obligations.ResetSatisfiesTheInvariant : Prop := State.reset.Inv

/-- Every step keeps the invariant: the memory stays canonical, `ip` even and at most 65536 (decision
D5, log entry 6), `sp` odd (decisions D8 and D9, log entry 10). -/
def Obligations.EveryStepKeepsTheInvariant : Prop :=
  ∀ s t : State, s.Inv → step s = .next t → t.Inv

/-! ### The instructions -/

/-- HALT (spec R64), and its example. -/
def Obligations.HaltHaltsTheCore : Prop :=
  (∀ a b c : Nibble, decode (assemble ⟨0x0#4, a, b, c⟩) = .halt a b c) ∧
  (∀ (a b c : Nibble) (s : State), s.halted = false →
    ∃ t : State, exec (.halt a b c) s = .next t ∧ t.halted = true ∧ EndedOk s t ∧ SameRegs s t ∧
      t.acc = s.acc ∧ t.sp = s.sp ∧ SameMemory s t) ∧
  (∀ (a b c : Nibble) (s : State), s.halted = true →
    ∃ t : State, exec (.halt a b c) s = .next t ∧ t.halted = true ∧ EndedOk s t) ∧
  submit 0x0000#16 State.reset =
    .next { State.reset with halted := true, ip := 2#17, status := some .ok }

/-- The no-op of `op` 0x2 and of the selects 0x12 to 0x1F (spec R65), and its example. -/
def Obligations.UnassignedOperationDoesNothing : Prop :=
  (∀ a b c : Nibble, decode (assemble ⟨0x2#4, a, b, c⟩) = .nop2 a b c) ∧
  (∀ (a b c : Nibble) (s : State), ∃ t : State, exec (.nop2 a b c) s = .next t ∧ EndedOk s t ∧
    SameRegs s t ∧ t.acc = s.acc ∧ t.sp = s.sp ∧ t.halted = s.halted ∧ SameMemory s t) ∧
  (∀ (sel : OpSel) (a b c : Nibble) (s : State), 0x12 ≤ sel.toNat →
    executionStage sel a b c s = exec (.nop2 a b c) s) ∧
  submit 0x2ABC#16 State.reset =
    .next { State.reset with mem := [(0, 0x2A#8), (1, 0xBC#8)], ip := 2#17, status := some .ok }

/-- LOAD_IMMEDIATE (spec R69). -/
def Obligations.LoadImmediateLoadsTheTwoNibbles : Prop :=
  (∀ a b c : Nibble, decode (assemble ⟨0x1#4, a, b, c⟩) = .loadImmediate a b c) ∧
  ∀ (a b c : Nibble) (s : State), s.halted = false →
    ∃ t : State, exec (.loadImmediate a b c) s = .next t ∧
      (t.reg a).toNat = 256 * b.toNat + c.toNat ∧ EndedOk s t ∧ SameRegsExcept a s t ∧
      t.acc = s.acc ∧ t.sp = s.sp ∧ t.halted = s.halted ∧ SameMemory s t

/-- DUMP (spec R70): it never faults, since its address is at most 0x0F0F. -/
def Obligations.DumpStoresTheRegister : Prop :=
  (∀ a b c : Nibble, decode (assemble ⟨0x3#4, a, b, c⟩) = .dump a b c) ∧
  ∀ (a b c : Nibble) (s : State), s.halted = false →
    ∃ t : State, exec (.dump a b c) s = .next t ∧ memAddress b c = 256 * b.toNat + c.toNat ∧
      HoldsWord (memAddress b c) (s.reg a) t ∧ SameMemoryOutside (memAddress b c) s t ∧
      EndedOk s t ∧ SameRegs s t ∧ t.acc = s.acc ∧ t.sp = s.sp ∧ t.halted = s.halted

/-- DUMP_ACCUM at the execution stage, select 0x10 (spec R71; decision D2, log entry 16). -/
def Obligations.DumpAccumStoresTheAccumulator : Prop :=
  ∀ (a b c : Nibble) (s : State), s.halted = false →
    executionStage 0x10#5 a b c s = exec (.dumpAccum a b c) s ∧
    ∃ t : State, exec (.dumpAccum a b c) s = .next t ∧ memAddress b c = 256 * b.toNat + c.toNat ∧
      HoldsWord (memAddress b c) s.acc t ∧ SameMemoryOutside (memAddress b c) s t ∧
      EndedOk s t ∧ SameRegs s t ∧ t.acc = s.acc ∧ t.sp = s.sp ∧ t.halted = s.halted

/-- ADD (spec R73). -/
def Obligations.AddWritesTheSumModulo65536 : Prop :=
  (∀ a b c : Nibble, decode (assemble ⟨0x4#4, a, b, c⟩) = .add a b c) ∧
  ∀ (a b c : Nibble) (s : State), s.halted = false →
    ∃ t : State, exec (.add a b c) s = .next t ∧ WroteOnlyAcc s t ∧
      t.acc.toNat = ((s.reg a).toNat + (s.reg b).toNat) % 65536

/-- SUB (spec R74): 65536 is added if the difference is negative. -/
def Obligations.SubWritesTheDifferenceModulo65536 : Prop :=
  (∀ a b c : Nibble, decode (assemble ⟨0x5#4, a, b, c⟩) = .sub a b c) ∧
  ∀ (a b c : Nibble) (s : State), s.halted = false →
    ∃ t : State, exec (.sub a b c) s = .next t ∧ WroteOnlyAcc s t ∧
      (t.acc.toNat : Int) = ((s.reg a).toNat - (s.reg b).toNat : Int) % 65536 ∧
      (t.acc.toNat : Int) = ((s.reg a).toNat - (s.reg b).toNat : Int) +
        (if (s.reg a).toNat < (s.reg b).toNat then 65536 else 0)

/-- MULT (spec R75): the low 16 bits of the product. -/
def Obligations.MultWritesTheProductModulo65536 : Prop :=
  (∀ a b c : Nibble, decode (assemble ⟨0x6#4, a, b, c⟩) = .mult a b c) ∧
  ∀ (a b c : Nibble) (s : State), s.halted = false →
    ∃ t : State, exec (.mult a b c) s = .next t ∧ WroteOnlyAcc s t ∧
      t.acc.toNat = ((s.reg a).toNat * (s.reg b).toNat) % 65536

/-- DIV by a register that is not 0: the largest `q` with `q * x[b] <= x[a]`; the rounding is decision
D12 (log entry 11). -/
def Obligations.DivWritesTheQuotientRoundedDown : Prop :=
  (∀ a b c : Nibble, decode (assemble ⟨0x7#4, a, b, c⟩) = .div a b c) ∧
  ∀ (a b c : Nibble) (s : State), s.halted = false → s.reg b ≠ 0#16 →
    ∃ t : State, exec (.div a b c) s = .next t ∧ WroteOnlyAcc s t ∧
      t.acc.toNat * (s.reg b).toNat ≤ (s.reg a).toNat ∧
      (s.reg a).toNat < (t.acc.toNat + 1) * (s.reg b).toNat

/-- DivisionByZero is raised by DIV alone, exactly when the divisor register holds 0 and the core is
not halted; nothing but the status changes (decision D7, log entry 8). -/
def Obligations.DivisionByZeroIsRaisedExactlyByDivByZero : Prop :=
  ∀ (i : Instr) (s : State),
    ((∃ a b c : Nibble, i = .div a b c ∧ s.reg b = 0#16) ∧ s.halted = false →
      ∃ t : State, exec i s = .next t ∧ OnlyFaulted .divisionByZero s t) ∧
    ∀ t : State, exec i s = .next t → t.status = some .divisionByZero →
      s.halted = false ∧ ∃ a b c : Nibble, i = .div a b c ∧ s.reg b = 0#16

/-- AND, bit by bit (spec R79). -/
def Obligations.AndWritesTheBitwiseConjunction : Prop :=
  (∀ a b c : Nibble, decode (assemble ⟨0x8#4, a, b, c⟩) = .and a b c) ∧
  ∀ (a b c : Nibble) (s : State), s.halted = false →
    ∃ t : State, exec (.and a b c) s = .next t ∧ WroteOnlyAcc s t ∧
      ∀ i : Nat, t.acc.getLsbD i = ((s.reg a).getLsbD i && (s.reg b).getLsbD i)

/-- OR, bit by bit (spec R80). -/
def Obligations.OrWritesTheBitwiseDisjunction : Prop :=
  (∀ a b c : Nibble, decode (assemble ⟨0x9#4, a, b, c⟩) = .or a b c) ∧
  ∀ (a b c : Nibble) (s : State), s.halted = false →
    ∃ t : State, exec (.or a b c) s = .next t ∧ WroteOnlyAcc s t ∧
      ∀ i : Nat, t.acc.getLsbD i = ((s.reg a).getLsbD i || (s.reg b).getLsbD i)

/-- NOT, `65535 - x[a]`, each of the 16 bits inverted (spec R81). -/
def Obligations.NotWritesTheComplement : Prop :=
  (∀ a b c : Nibble, decode (assemble ⟨0xA#4, a, b, c⟩) = .not a b c) ∧
  ∀ (a b c : Nibble) (s : State), s.halted = false →
    ∃ t : State, exec (.not a b c) s = .next t ∧ WroteOnlyAcc s t ∧
      t.acc.toNat = 65535 - (s.reg a).toNat ∧
      ∀ i : Nat, i < 16 → t.acc.getLsbD i = !(s.reg a).getLsbD i

/-- XOR, bit by bit (spec R82). -/
def Obligations.XorWritesTheBitwiseDifference : Prop :=
  (∀ a b c : Nibble, decode (assemble ⟨0xB#4, a, b, c⟩) = .xor a b c) ∧
  ∀ (a b c : Nibble) (s : State), s.halted = false →
    ∃ t : State, exec (.xor a b c) s = .next t ∧ WroteOnlyAcc s t ∧
      ∀ i : Nat, t.acc.getLsbD i = ((s.reg a).getLsbD i ^^ (s.reg b).getLsbD i)

/-- LSHIFT by the field `b`, zeros entering at bit 0: decision D13 (log entry 12). -/
def Obligations.LshiftMultipliesByAPowerOfTwo : Prop :=
  (∀ a b c : Nibble, decode (assemble ⟨0xC#4, a, b, c⟩) = .lshift a b c) ∧
  ∀ (a b c : Nibble) (s : State), s.halted = false →
    ∃ t : State, exec (.lshift a b c) s = .next t ∧ WroteOnlyAcc s t ∧
      t.acc.toNat = ((s.reg a).toNat * 2 ^ b.toNat) % 65536 ∧
      ∀ i : Nat, i < 16 →
        t.acc.getLsbD i = (decide (b.toNat ≤ i) && (s.reg a).getLsbD (i - b.toNat))

/-- RSHIFT by the field `b`, zeros entering at bit 15: decision D13 (log entry 12). -/
def Obligations.RshiftDividesByAPowerOfTwo : Prop :=
  (∀ a b c : Nibble, decode (assemble ⟨0xD#4, a, b, c⟩) = .rshift a b c) ∧
  ∀ (a b c : Nibble) (s : State), s.halted = false →
    ∃ t : State, exec (.rshift a b c) s = .next t ∧ WroteOnlyAcc s t ∧
      t.acc.toNat = (s.reg a).toNat / 2 ^ b.toNat ∧
      ∀ i : Nat, t.acc.getLsbD i = (s.reg a).getLsbD (b.toNat + i)

/-- PUSH of a register with `sp` at least 2 (decision D8, log entry 10): the high byte at `sp - 1`, the
low byte at `sp`, and `sp` down by 2. -/
def Obligations.PushStoresTheRegisterBelowTheStack : Prop :=
  (∀ a b c : Nibble, decode (assemble ⟨0xE#4, a, b, c⟩) = .push a b c) ∧
  ∀ (a b c : Nibble) (s : State), s.halted = false → 2 ≤ s.sp.toNat →
    ∃ t : State, exec (.push a b c) s = .next t ∧ pushAddress s + 1 = s.sp.toNat ∧
      HoldsWord (pushAddress s) (s.reg a) t ∧ SameMemoryOutside (pushAddress s) s t ∧
      t.sp.toNat + 2 = s.sp.toNat ∧ EndedOk s t ∧ SameRegs s t ∧ t.acc = s.acc ∧
      t.halted = s.halted

/-- POP with `sp` at most 65533 (decision D9, log entry 10): the byte at `sp + 1` is the less
significant, the byte at `sp + 2` the more significant (decision D11, log entry 9). -/
def Obligations.PopLoadsTheEntryAboveTheStack : Prop :=
  (∀ a b c : Nibble, decode (assemble ⟨0xF#4, a, b, c⟩) = .pop a b c) ∧
  ∀ (a b c : Nibble) (s : State), s.halted = false → s.sp.toNat ≤ 65533 →
    ∃ t : State, exec (.pop a b c) s = .next t ∧
      loByte (t.reg a) = s.mem.read (s.sp.toNat + 1) ∧
      hiByte (t.reg a) = s.mem.read (s.sp.toNat + 2) ∧ SameRegsExcept a s t ∧
      t.sp.toNat = s.sp.toNat + 2 ∧ EndedOk s t ∧ t.acc = s.acc ∧ t.halted = s.halted ∧
      SameMemory s t

/-- PUSH_ACCUM at the execution stage, select 0x11, with `sp` at least 2: laid out as PUSH (decisions
D2, D8 and D24, log entries 16, 10 and 17). -/
def Obligations.PushAccumStoresTheAccumulatorBelowTheStack : Prop :=
  ∀ (a b c : Nibble) (s : State), s.halted = false → 2 ≤ s.sp.toNat →
    executionStage 0x11#5 a b c s = exec (.pushAccum a b c) s ∧
    ∃ t : State, exec (.pushAccum a b c) s = .next t ∧ pushAddress s + 1 = s.sp.toNat ∧
      HoldsWord (pushAddress s) s.acc t ∧ SameMemoryOutside (pushAddress s) s t ∧
      t.sp.toNat + 2 = s.sp.toNat ∧ EndedOk s t ∧ SameRegs s t ∧ t.acc = s.acc ∧
      t.halted = s.halted

/-- OutOfRange is raised by an instruction exactly when a push finds `sp < 2` or a pop finds
`sp > 65533`, not halted; nothing but the status changes: decisions D7, D8 and D9 (log entries 8 and
10). -/
def Obligations.OutOfRangeIsRaisedExactlyAtTheEndsOfTheStack : Prop :=
  ∀ (i : Instr) (s : State),
    ((∃ a b c : Nibble, i = .push a b c ∨ i = .pushAccum a b c) ∧ s.sp.toNat < 2 ∧
        s.halted = false →
      ∃ t : State, exec i s = .next t ∧ OnlyFaulted .outOfRange s t) ∧
    ((∃ a b c : Nibble, i = .pop a b c) ∧ 65533 < s.sp.toNat ∧ s.halted = false →
      ∃ t : State, exec i s = .next t ∧ OnlyFaulted .outOfRange s t) ∧
    ∀ t : State, exec i s = .next t → t.status = some .outOfRange →
      s.halted = false ∧
      (((∃ a b c : Nibble, i = .push a b c ∨ i = .pushAccum a b c) ∧ s.sp.toNat < 2) ∨
        ((∃ a b c : Nibble, i = .pop a b c) ∧ 65533 < s.sp.toNat))

/-- A push of a value and then a pop give the value with its two bytes exchanged, and `sp` as before:
decision D11 (log entry 9), for `sp` at least 2, decision D8 (log entry 10). The second half is about
PUSH_ACCUM, which no word selects (decision D2, log entry 16) and whose byte layout is decision D24
(log entry 17). -/
def Obligations.PushThenPopExchangesTheBytes : Prop :=
  ∀ (a b c d : Nibble) (s : State), s.halted = false → 2 ≤ s.sp.toNat →
    (∃ t u : State, exec (.push a b c) s = .next t ∧ exec (.pop d b c) t = .next u ∧
      hiByte (u.reg d) = loByte (s.reg a) ∧ loByte (u.reg d) = hiByte (s.reg a) ∧ u.sp = s.sp ∧
      SameRegsExcept d s u) ∧
    ∃ t u : State, exec (.pushAccum a b c) s = .next t ∧ exec (.pop d b c) t = .next u ∧
      hiByte (u.reg d) = loByte s.acc ∧ loByte (u.reg d) = hiByte s.acc ∧ u.sp = s.sp ∧
      SameRegsExcept d s u

/-! ### Runs -/

/-- The accumulator influences nothing: two runs of the same words from states that differ only in
`acc` end in states that differ at most in `acc` (decision D2, log entry 16). -/
def Obligations.AccumulatorInfluencesNothing : Prop :=
  ∀ (ws : List Word) (s t : State) (v : Word), runWords ws s = .next t →
    ∃ t' : State, runWords ws { s with acc := v } = .next t' ∧ t' = { t with acc := t'.acc } ∧
      okSteps ws { s with acc := v } = okSteps ws s

/-- What memory holds influences nothing but memory in a run of words none of which is POP: no word is
ever fetched from memory. -/
def Obligations.MemoryInfluencesOnlyPop : Prop :=
  ∀ (ws : List Word) (s t : State) (m : Memory),
    (∀ w ∈ ws, ∀ a b c : Nibble, decode w ≠ .pop a b c) → runWords ws s = .next t →
    ∃ t' : State, runWords ws { s with mem := m } = .next t' ∧ t' = { t with mem := t'.mem }

/-- `ip` counts the Ok steps of a run two by two, a fault not advancing it: decision D7 (log entry 8);
and there are at most 32768 of them: decision D5 (log entry 6). -/
def Obligations.IpCountsTheOkStepsOfARun : Prop :=
  ∀ (ws : List Word) (s : State),
    okSteps ws s ≤ 32768 ∧
    ∃ t : State, runWords ws s = .next t ∧ t.ip.toNat = s.ip.toNat + 2 * okSteps ws s

/-- In a run of words that store nothing, no byte below `ip` is ever written: the instruction log only
grows upward, since `ip` does not wrap: decision D5 (log entry 6, unsafe for runs of more than 32768 Ok
steps); a fault leaves `ip` where it is: decision D7 (log entry 8). -/
def Obligations.BytesBelowIpAreNeverWrittenAgain : Prop :=
  ∀ (ws : List Word) (s t : State),
    (∀ w ∈ ws, ∀ u : State, storeAddress (decode w) u = none) → runWords ws s = .next t →
    s.ip.toNat ≤ t.ip.toNat ∧ ∀ n : Nat, n < s.ip.toNat → t.mem.read n = s.mem.read n

/-- The machine given a queue of words is the run of those words, one step a word, in order. The queue
is the model's own field `inputs`, its form of the step port of R91 and R93 (log entry 1, DESIGN
CHOICE). -/
def Obligations.QueuedWordsRunInOrder : Prop :=
  ∀ (ws : List Word) (s : State),
    core.run ws.length { s with inputs := ws.map .word } = runWords ws { s with inputs := [] }

/-! ### Observation and requesters -/

/-- The observation lists exactly the memory cells that are not zero, by rising address, and every
register under its letter (decision D23, log entry 18). -/
def Obligations.ObservationListsExactlyTheNonzeroCells : Prop :=
  ∀ s : State, Memory.wf s.mem = true →
    ((observe s).memory.map Prod.fst).Pairwise (· < ·) ∧
    (∀ (n : Nat) (b : Byte), (n, b) ∈ (observe s).memory ↔
      (n ≤ 65535 ∧ b ≠ 0x00#8 ∧ s.mem.read n = b)) ∧
    (observe s).registers.length = 16 ∧
    ∀ r : Nibble, (observe s).registers[r.toNat]? = some (Char.ofNat (65 + r.toNat), s.reg r)

/-- The observation hides nothing: states observed alike differ at most in the model's interface
fields. -/
def Obligations.ObservationDeterminesTheState : Prop :=
  ∀ s t : State, observe s = observe t → t = { s with status := t.status, inputs := t.inputs }

/-- Two requests at once, 0x1105 and 0x1107 from reset: whatever order the arbiter takes, the end state
is that of one of the two orders, never a mixture (the spec's S9). -/
def Obligations.RacingRequestsEndAsOneOrderOrTheOther : Prop :=
  ∀ (ws : List Word) (t : State), Interleaving [0x1105#16] [0x1107#16] ws →
    runWords ws State.reset = .next t →
    t.ip = 4#17 ∧
    ((t.mem = [(0, 0x11#8), (1, 0x05#8), (2, 0x11#8), (3, 0x07#8)] ∧ t.reg 1#4 = 0x0007#16) ∨
      (t.mem = [(0, 0x11#8), (1, 0x07#8), (2, 0x11#8), (3, 0x05#8)] ∧ t.reg 1#4 = 0x0005#16))
end

