-- ==== Sys2Proof/Laws/Bytes.lean ====
section
/-! SUPPORT. A word is its two bytes (spec R8). -/

namespace Sys2Proof

@[simp] theorem joinBytes_hiByte_loByte (w : Word) : joinBytes (hiByte w) (loByte w) = w := by
  ext i hi
  rcases Nat.lt_or_ge i 8 with h | h
  · simp [joinBytes, hiByte, loByte, h, BitVec.getLsbD_eq_getElem, hi]
  · have : i - 8 < 8 := by omega
    simp [joinBytes, hiByte, loByte, h, Nat.not_lt.mpr h, this, BitVec.getLsbD_eq_getElem, hi]

@[simp] theorem hiByte_joinBytes (hi lo : Byte) : hiByte (joinBytes hi lo) = hi := by
  ext i h
  have h16 : 8 + i < 16 := by omega
  simp [joinBytes, hiByte, h, h16]

@[simp] theorem loByte_joinBytes (hi lo : Byte) : loByte (joinBytes hi lo) = lo := by
  ext i h
  have h16 : i < 16 := by omega
  simp [joinBytes, loByte, h, h16]

end Sys2Proof
end

