-- ==== Sys2Proof/Laws/Memory.lean ====
section
/-! SUPPORT. The laws of memory: a byte written reads back, every other byte reads as before, and every
operation keeps the canonical form. -/

namespace Sys2Proof.Machine

@[simp] theorem Memory.read_nil (n : Nat) : Memory.read n [] = Memory.unlisted := rfl

theorem Memory.read_cons (n k : Nat) (v : Byte) (m : Memory) :
    Memory.read n ((k, v) :: m) = if k = n then v else Memory.read n m := rfl

theorem Memory.read_of_forall_ne {n : Nat} {m : Memory} (h : ∀ cell ∈ m, cell.1 ≠ n) :
    Memory.read n m = Memory.unlisted := by
  induction m with
  | nil => rfl
  | cons cell m ih =>
    obtain ⟨k, v⟩ := cell
    have hk : k ≠ n := h (k, v) (List.mem_cons_self ..)
    rw [Memory.read_cons, if_neg hk]
    exact ih fun c hc => h c (List.mem_cons_of_mem _ hc)

theorem Memory.ne_of_mem_erase {n : Nat} {m : Memory} : ∀ cell ∈ Memory.erase n m, cell.1 ≠ n := by
  intro cell h
  simpa using (List.mem_filter.mp h).2

theorem Memory.read_erase_other {n k : Nat} (h : k ≠ n) (m : Memory) :
    Memory.read k (Memory.erase n m) = Memory.read k m := by
  induction m with
  | nil => rfl
  | cons cell m ih =>
    obtain ⟨j, v⟩ := cell
    rw [Memory.erase, List.filter_cons]
    split
    · rw [Memory.read_cons, Memory.read_cons, ← ih, Memory.erase]
    · rename_i hj
      have hj' : j = n := by simpa using hj
      rw [Memory.read_cons, if_neg (fun e => h (by rw [← e, hj'])), ← ih, Memory.erase]

theorem Memory.read_insert_same {n : Nat} {b : Byte} {m : Memory} (h : ∀ cell ∈ m, cell.1 ≠ n) :
    Memory.read n (Memory.insert n b m) = b := by
  induction m with
  | nil => simp [Memory.insert, Memory.read_cons]
  | cons cell m ih =>
    obtain ⟨k, v⟩ := cell
    have hk : k ≠ n := h (k, v) (List.mem_cons_self ..)
    rw [Memory.insert]
    split
    · rw [Memory.read_cons, if_pos rfl]
    · rw [Memory.read_cons, if_neg hk]
      exact ih fun c hc => h c (List.mem_cons_of_mem _ hc)

theorem Memory.read_insert_other {n k : Nat} (h : k ≠ n) (b : Byte) (m : Memory) :
    Memory.read k (Memory.insert n b m) = Memory.read k m := by
  induction m with
  | nil => simp [Memory.insert, Memory.read_cons, Ne.symm h]
  | cons cell m ih =>
    obtain ⟨j, v⟩ := cell
    rw [Memory.insert]
    split
    · rw [Memory.read_cons, if_neg (Ne.symm h)]
    · rw [Memory.read_cons, Memory.read_cons, ih]

/-- A byte written is the byte read. -/
@[simp] theorem Memory.read_write_same (n : Nat) (b : Byte) (m : Memory) :
    Memory.read n (Memory.write n b m) = b := by
  rw [Memory.write]
  split
  · rename_i hb
    rw [hb]
    exact Memory.read_of_forall_ne Memory.ne_of_mem_erase
  · exact Memory.read_insert_same Memory.ne_of_mem_erase

/-- A write leaves every other byte alone. -/
theorem Memory.read_write_other {n k : Nat} (h : k ≠ n) (b : Byte) (m : Memory) :
    Memory.read k (Memory.write n b m) = Memory.read k m := by
  rw [Memory.write]
  split
  · exact Memory.read_erase_other h m
  · rw [Memory.read_insert_other h, Memory.read_erase_other h]

theorem Memory.read_write (n k : Nat) (b : Byte) (m : Memory) :
    Memory.read k (Memory.write n b m) = if k = n then b else Memory.read k m := by
  split
  · rename_i h
    rw [h, Memory.read_write_same]
  · rename_i h
    exact Memory.read_write_other h b m

/-- What the canonical form says of a memory with a first cell. -/
theorem Memory.wf_cons {k : Nat} {v : Byte} {m : Memory} :
    Memory.wf ((k, v) :: m) = true ↔
      k ≤ Config.maxAddress ∧ v ≠ Memory.unlisted ∧ (∀ cell ∈ m, k < cell.1) ∧ Memory.wf m = true := by
  simp [Memory.wf, and_assoc]

@[simp] theorem Memory.wf_nil : Memory.wf [] = true := rfl

theorem Memory.wf_erase {m : Memory} (n : Nat) (h : Memory.wf m = true) :
    Memory.wf (Memory.erase n m) = true := by
  induction m with
  | nil => rfl
  | cons cell m ih =>
    obtain ⟨k, v⟩ := cell
    obtain ⟨hk, hv, hm, hw⟩ := Memory.wf_cons.mp h
    rw [Memory.erase, List.filter_cons]
    split
    · exact Memory.wf_cons.mpr
        ⟨hk, hv, fun c hc => hm c (List.mem_filter.mp hc).1, ih hw⟩
    · exact ih hw

theorem Memory.mem_insert {n : Nat} {b : Byte} {m : Memory} {cell : Host.Cell}
    (h : cell ∈ Memory.insert n b m) : cell = (n, b) ∨ cell ∈ m := by
  induction m with
  | nil => exact .inl (by simpa [Memory.insert] using h)
  | cons c m ih =>
    obtain ⟨k, v⟩ := c
    rw [Memory.insert] at h
    split at h
    · simpa using h
    · rcases List.mem_cons.mp h with h | h
      · exact .inr (h ▸ List.mem_cons_self ..)
      · exact (ih h).imp id (List.mem_cons_of_mem _)

theorem Memory.wf_insert {n : Nat} {b : Byte} {m : Memory} (hn : n ≤ Config.maxAddress)
    (hb : b ≠ Memory.unlisted) (hne : ∀ cell ∈ m, cell.1 ≠ n) (h : Memory.wf m = true) :
    Memory.wf (Memory.insert n b m) = true := by
  induction m with
  | nil => exact Memory.wf_cons.mpr ⟨hn, hb, by simp, rfl⟩
  | cons cell m ih =>
    obtain ⟨k, v⟩ := cell
    obtain ⟨hk, hv, hm, hw⟩ := Memory.wf_cons.mp h
    have hkn : k ≠ n := hne (k, v) (List.mem_cons_self ..)
    rw [Memory.insert]
    split
    · rename_i hlt
      refine Memory.wf_cons.mpr ⟨hn, hb, ?_, h⟩
      intro c hc
      rcases List.mem_cons.mp hc with rfl | hc
      · exact hlt
      · exact hlt.trans (hm c hc)
    · rename_i hlt
      refine Memory.wf_cons.mpr
        ⟨hk, hv, ?_, ih (fun c hc => hne c (List.mem_cons_of_mem _ hc)) hw⟩
      intro c hc
      rcases Memory.mem_insert hc with rfl | hc
      · exact lt_of_le_of_ne (Nat.le_of_not_lt hlt) hkn
      · exact hm c hc

/-- A write at a legal address keeps the canonical form. -/
theorem Memory.wf_write {n : Nat} {m : Memory} (hn : n ≤ Config.maxAddress) (b : Byte)
    (h : Memory.wf m = true) : Memory.wf (Memory.write n b m) = true := by
  rw [Memory.write]
  split
  · exact Memory.wf_erase n h
  · rename_i hb
    exact Memory.wf_insert hn hb Memory.ne_of_mem_erase (Memory.wf_erase n h)

/-- In the canonical form no byte below the first listed address is listed. -/
theorem Memory.read_below {k n : Nat} {m : Memory} (h : ∀ cell ∈ m, k < cell.1) (hn : n ≤ k) :
    Memory.read n m = Memory.unlisted :=
  Memory.read_of_forall_ne fun c hc => Nat.ne_of_gt (lt_of_le_of_lt hn (h c hc))

/-- Two memories in canonical form that read alike at every address are the same list. -/
theorem Memory.eq_of_read {m m' : Memory} (h : Memory.wf m = true) (h' : Memory.wf m' = true)
    (hr : ∀ n, Memory.read n m = Memory.read n m') : m = m' := by
  induction m generalizing m' with
  | nil =>
    cases m' with
    | nil => rfl
    | cons cell m' =>
      obtain ⟨k, v⟩ := cell
      have := hr k
      rw [Memory.read_nil, Memory.read_cons, if_pos rfl] at this
      exact absurd this.symm (Memory.wf_cons.mp h').2.1
  | cons cell m ih =>
    obtain ⟨k, v⟩ := cell
    obtain ⟨-, hv, hm, hw⟩ := Memory.wf_cons.mp h
    have hk := hr k
    rw [Memory.read_cons, if_pos rfl] at hk
    cases m' with
    | nil => exact absurd hk hv
    | cons cell' m' =>
      obtain ⟨k', v'⟩ := cell'
      obtain ⟨-, hv', hm', hw'⟩ := Memory.wf_cons.mp h'
      have hk' := hr k'
      rw [Memory.read_cons (n := k') (k := k'), if_pos rfl] at hk'
      have hkk : k = k' := by
        rcases Nat.lt_trichotomy k k' with hlt | heq | hgt
        · rw [Memory.read_cons, if_neg (Nat.ne_of_gt hlt), Memory.read_below hm' hlt.le] at hk
          exact absurd hk hv
        · exact heq
        · rw [Memory.read_cons, if_neg (Nat.ne_of_gt hgt), Memory.read_below hm hgt.le] at hk'
          exact absurd hk'.symm hv'
      subst hkk
      rw [Memory.read_cons, if_pos rfl] at hk
      rw [hk, ih hw hw' fun n => ?_]
      have hn := hr n
      rw [Memory.read_cons, Memory.read_cons] at hn
      by_cases hkn : k = n
      · rw [Memory.read_below hm hkn.ge, Memory.read_below hm' hkn.ge]
      · rwa [if_neg hkn, if_neg hkn] at hn

end Sys2Proof.Machine
end

