-- ==== Sys2Proof/Laws/State.lean ====
section
/-! SUPPORT. What each field holds after each update of the state: one lemma per field per update, and
the register and byte reads. -/

namespace Sys2Proof.Machine

@[simp] theorem State.setReg_regs (s : State) (i : Nibble) (v : Word) : (s.setReg i v).regs = s.regs.set i.toNat v i.isLt := rfl
@[simp] theorem State.setReg_acc (s : State) (i : Nibble) (v : Word) : (s.setReg i v).acc = s.acc := rfl
@[simp] theorem State.setReg_ip (s : State) (i : Nibble) (v : Word) : (s.setReg i v).ip = s.ip := rfl
@[simp] theorem State.setReg_sp (s : State) (i : Nibble) (v : Word) : (s.setReg i v).sp = s.sp := rfl
@[simp] theorem State.setReg_halted (s : State) (i : Nibble) (v : Word) : (s.setReg i v).halted = s.halted := rfl
@[simp] theorem State.setReg_mem (s : State) (i : Nibble) (v : Word) : (s.setReg i v).mem = s.mem := rfl
@[simp] theorem State.setReg_status (s : State) (i : Nibble) (v : Word) : (s.setReg i v).status = s.status := rfl
@[simp] theorem State.setReg_inputs (s : State) (i : Nibble) (v : Word) : (s.setReg i v).inputs = s.inputs := rfl

@[simp] theorem State.setAcc_regs (s : State) (v : Word) : (s.setAcc v).regs = s.regs := rfl
@[simp] theorem State.setAcc_acc (s : State) (v : Word) : (s.setAcc v).acc = v := rfl
@[simp] theorem State.setAcc_ip (s : State) (v : Word) : (s.setAcc v).ip = s.ip := rfl
@[simp] theorem State.setAcc_sp (s : State) (v : Word) : (s.setAcc v).sp = s.sp := rfl
@[simp] theorem State.setAcc_halted (s : State) (v : Word) : (s.setAcc v).halted = s.halted := rfl
@[simp] theorem State.setAcc_mem (s : State) (v : Word) : (s.setAcc v).mem = s.mem := rfl
@[simp] theorem State.setAcc_status (s : State) (v : Word) : (s.setAcc v).status = s.status := rfl
@[simp] theorem State.setAcc_inputs (s : State) (v : Word) : (s.setAcc v).inputs = s.inputs := rfl

@[simp] theorem State.memWrite2_regs (s : State) (n : Nat) (v : Word) : (s.memWrite2 n v).regs = s.regs := rfl
@[simp] theorem State.memWrite2_acc (s : State) (n : Nat) (v : Word) : (s.memWrite2 n v).acc = s.acc := rfl
@[simp] theorem State.memWrite2_ip (s : State) (n : Nat) (v : Word) : (s.memWrite2 n v).ip = s.ip := rfl
@[simp] theorem State.memWrite2_sp (s : State) (n : Nat) (v : Word) : (s.memWrite2 n v).sp = s.sp := rfl
@[simp] theorem State.memWrite2_halted (s : State) (n : Nat) (v : Word) : (s.memWrite2 n v).halted = s.halted := rfl
/-- Not a simp lemma: a byte after a stored word is read by the lemmas of Laws/Ops.lean. -/
theorem State.memWrite2_mem (s : State) (n : Nat) (v : Word) : (s.memWrite2 n v).mem = (s.mem.write n (hiByte v)).write (n + 1) (loByte v) := rfl
@[simp] theorem State.memWrite2_status (s : State) (n : Nat) (v : Word) : (s.memWrite2 n v).status = s.status := rfl
@[simp] theorem State.memWrite2_inputs (s : State) (n : Nat) (v : Word) : (s.memWrite2 n v).inputs = s.inputs := rfl

@[simp] theorem complete_regs (s : State) : (complete s).regs = s.regs := rfl
@[simp] theorem complete_acc (s : State) : (complete s).acc = s.acc := rfl
@[simp] theorem complete_ip (s : State) : (complete s).ip = s.ip + 2#17 := rfl
@[simp] theorem complete_sp (s : State) : (complete s).sp = s.sp := rfl
@[simp] theorem complete_halted (s : State) : (complete s).halted = s.halted := rfl
@[simp] theorem complete_mem (s : State) : (complete s).mem = s.mem := rfl
@[simp] theorem complete_status (s : State) : (complete s).status = some .ok := rfl
@[simp] theorem complete_inputs (s : State) : (complete s).inputs = s.inputs := rfl

@[simp] theorem takeException_regs (e : Exception) (s : State) : (takeException e s).regs = s.regs := rfl
@[simp] theorem takeException_acc (e : Exception) (s : State) : (takeException e s).acc = s.acc := rfl
@[simp] theorem takeException_ip (e : Exception) (s : State) : (takeException e s).ip = s.ip := rfl
@[simp] theorem takeException_sp (e : Exception) (s : State) : (takeException e s).sp = s.sp := rfl
@[simp] theorem takeException_halted (e : Exception) (s : State) : (takeException e s).halted = s.halted := rfl
@[simp] theorem takeException_mem (e : Exception) (s : State) : (takeException e s).mem = s.mem := rfl
@[simp] theorem takeException_status (e : Exception) (s : State) : (takeException e s).status = some e.status := rfl
@[simp] theorem takeException_inputs (e : Exception) (s : State) : (takeException e s).inputs = s.inputs := rfl

/-- A register written is the register read. -/
@[simp] theorem State.reg_setReg_same (s : State) (i : Nibble) (v : Word) :
    (s.setReg i v).reg i = v := by
  simp [State.reg]

/-- Writing a register leaves every other register alone. -/
theorem State.reg_setReg_other (s : State) {i j : Nibble} (h : j ≠ i) (v : Word) :
    (s.setReg i v).reg j = s.reg j := by
  have : i.toNat ≠ j.toNat := fun e => h (BitVec.eq_of_toNat_eq e.symm)
  simp [State.reg, Vector.getElem_set_ne, this]

/-- A register read depends on the registers alone. -/
theorem State.reg_congr {s t : State} (h : t.regs = s.regs) (i : Nibble) : t.reg i = s.reg i := by
  simp only [State.reg, h]

@[simp] theorem State.reg_setAcc (s : State) (v : Word) (i : Nibble) : (s.setAcc v).reg i = s.reg i := rfl
@[simp] theorem State.reg_memWrite2 (s : State) (n : Nat) (v : Word) (i : Nibble) :
    (s.memWrite2 n v).reg i = s.reg i := rfl
@[simp] theorem reg_complete (s : State) (i : Nibble) : (complete s).reg i = s.reg i := rfl
@[simp] theorem reg_takeException (e : Exception) (s : State) (i : Nibble) :
    (takeException e s).reg i = s.reg i := rfl

end Sys2Proof.Machine
end

