-- ==== Sys2Proof/Laws/Ops.lean ====
section
/-! SUPPORT. For each shared operation, once, everything it can do. -/

namespace Sys2Proof.Machine

@[simp] theorem inRange_iff (n : Nat) : inRange n = true ↔ n ≤ 65535 := by
  simp [inRange, Config.maxAddress]

/-- The high byte of a stored word, read back. -/
@[simp] theorem State.memWrite2_read_hi (s : State) (n : Nat) (v : Word) :
    (s.memWrite2 n v).mem.read n = hiByte v := by
  rw [State.memWrite2_mem, Memory.read_write_other (Nat.ne_of_lt (Nat.lt_succ_self n)),
    Memory.read_write_same]

/-- The low byte of a stored word, read back. -/
@[simp] theorem State.memWrite2_read_lo (s : State) (n : Nat) (v : Word) :
    (s.memWrite2 n v).mem.read (n + 1) = loByte v := by
  rw [State.memWrite2_mem, Memory.read_write_same]

/-- A stored word leaves every byte outside its two bytes alone. -/
theorem State.memWrite2_read_other (s : State) {n k : Nat} (v : Word) (h : k ≠ n) (h' : k ≠ n + 1) :
    (s.memWrite2 n v).mem.read k = s.mem.read k := by
  rw [State.memWrite2_mem, Memory.read_write_other h', Memory.read_write_other h]

/-- A stored word is the word read back. -/
@[simp] theorem State.memRead2_memWrite2_same (s : State) (n : Nat) (v : Word) :
    (s.memWrite2 n v).memRead2 n = v := by
  rw [State.memRead2, State.memWrite2_read_hi, State.memWrite2_read_lo, joinBytes_hiByte_loByte]

/-- Storing a word inside memory keeps the canonical form. -/
theorem State.memWrite2_wf {s : State} {n : Nat} (v : Word) (hn : n + 1 ≤ 65535)
    (h : Memory.wf s.mem = true) : Memory.wf (s.memWrite2 n v).mem = true :=
  Memory.wf_write hn _ (Memory.wf_write (Nat.le_of_succ_le hn) _ h)

/-- A checked store inside memory stores. -/
theorem storeWord_inside {n : Nat} (v : Word) (s : State) (h : n + 1 ≤ 65535) :
    storeWord n v s = .ok (s.memWrite2 n v) := by
  rw [storeWord, if_pos]
  simp only [Bool.and_eq_true, inRange_iff]
  omega

/-- A checked store that would leave memory raises OutOfRange. -/
theorem storeWord_outside {n : Nat} (v : Word) (s : State) (h : 65535 < n + 1) :
    storeWord n v s = .error .outOfRange := by
  rw [storeWord, if_neg]
  simp only [Bool.and_eq_true, inRange_iff]
  omega

/-- Everything a checked store can do. -/
theorem storeWord_cases (n : Nat) (v : Word) (s : State) :
    (n + 1 ≤ 65535 ∧ storeWord n v s = .ok (s.memWrite2 n v)) ∨
      (65535 < n + 1 ∧ storeWord n v s = .error .outOfRange) := by
  rcases Nat.lt_or_ge 65535 (n + 1) with h | h
  · exact .inr ⟨h, storeWord_outside v s h⟩
  · exact .inl ⟨h, storeWord_inside v s h⟩

/-- Every address two nibbles form, and the byte after it, is inside memory (spec R29). -/
theorem memAddress_le (b c : Nibble) : memAddress b c ≤ 3855 := by
  revert b c
  decide

/-- Everything a push can do. -/
theorem pushWord_cases (v : Word) (s : State) :
    (2 ≤ s.sp.toNat ∧
        pushWord v s = .ok { s.memWrite2 (pushAddress s) v with sp := s.sp - 2#16 }) ∨
      (s.sp.toNat < 2 ∧ pushWord v s = .error .outOfRange) := by
  rcases Nat.lt_or_ge s.sp.toNat 2 with h | h
  · exact .inr ⟨h, if_pos h⟩
  · exact .inl ⟨h, if_neg (Nat.not_lt.mpr h)⟩

/-- Everything a pop can do. -/
theorem popWord_cases (i : Nibble) (s : State) :
    (s.sp.toNat ≤ 65533 ∧ popWord i s = .ok { s.setReg i (popValue s) with sp := s.sp + 2#16 }) ∨
      (65533 < s.sp.toNat ∧ popWord i s = .error .outOfRange) := by
  rcases Nat.lt_or_ge 65533 s.sp.toNat with h | h
  · exact .inr ⟨h, if_pos h⟩
  · exact .inl ⟨h, if_neg (Nat.not_lt.mpr h)⟩

/-- While halted, only the advance. -/
theorem runOperation_halted {s : State} (operation : State → Except Exception State)
    (h : s.halted = true) : runOperation operation s = .next (complete s) := by
  simp [runOperation, h]

/-- An operation that succeeds, then the advance. -/
theorem runOperation_ok {s u : State} {operation : State → Except Exception State}
    (h : s.halted = false) (ho : operation s = .ok u) :
    runOperation operation s = .next (complete u) := by
  simp [runOperation, h, ho]

/-- An operation that raises takes its exception. -/
theorem runOperation_error {s : State} {e : Exception} {operation : State → Except Exception State}
    (h : s.halted = false) (ho : operation s = .error e) :
    runOperation operation s = .next (takeException e s) := by
  simp [runOperation, h, ho]

/-- Everything lines 4 to 6 of a step can do. -/
theorem runOperation_cases (operation : State → Except Exception State) (s : State) :
    (s.halted = true ∧ runOperation operation s = .next (complete s)) ∨
      (s.halted = false ∧ ∃ u, operation s = .ok u ∧
        runOperation operation s = .next (complete u)) ∨
      (s.halted = false ∧ ∃ e, operation s = .error e ∧
        runOperation operation s = .next (takeException e s)) := by
  cases hh : s.halted with
  | true => exact .inl ⟨rfl, runOperation_halted operation hh⟩
  | false =>
    cases ho : operation s with
    | ok u => exact .inr (.inl ⟨rfl, u, rfl, runOperation_ok hh ho⟩)
    | error e => exact .inr (.inr ⟨rfl, e, rfl, runOperation_error hh ho⟩)

/-- The advance does not wrap while `ip` is inside memory (spec R17). -/
theorem complete_ip_toNat {s : State} (h : s.ip.toNat ≤ 65534) :
    (complete s).ip.toNat = s.ip.toNat + 2 := by
  rw [complete_ip, BitVec.toNat_add]
  simp only [BitVec.toNat_ofNat]
  omega

end Sys2Proof.Machine
end

