-- ==== Sys2Proof/Laws/Exec.lean ====
section
/-! SUPPORT. Every instruction is lines 4 to 6 of the step around one operation. -/

namespace Sys2Proof.Machine

/-- The state changes or the exception of an instruction at line 5 of spec R58, as its meaning has it. -/
def operationOf (i : Instr) (s : State) : Except Exception State :=
  match i with
  | .halt _ _ _ => .ok { s with halted := true }
  | .loadImmediate a b c => .ok (s.setReg a (immediate b c))
  | .nop2 _ _ _ => .ok s
  | .dump a b c => storeWord (memAddress b c) (s.reg a) s
  | .add a b _ => .ok (s.setAcc (aluAdd (s.reg a) (s.reg b)))
  | .sub a b _ => .ok (s.setAcc (aluSub (s.reg a) (s.reg b)))
  | .mult a b _ => .ok (s.setAcc (aluMult (s.reg a) (s.reg b)))
  | .div a b _ =>
    if s.reg b = 0#16 then .error .divisionByZero else .ok (s.setAcc (aluDiv (s.reg a) (s.reg b)))
  | .and a b _ => .ok (s.setAcc (aluAnd (s.reg a) (s.reg b)))
  | .or a b _ => .ok (s.setAcc (aluOr (s.reg a) (s.reg b)))
  | .not a _ _ => .ok (s.setAcc (aluNot (s.reg a)))
  | .xor a b _ => .ok (s.setAcc (aluXor (s.reg a) (s.reg b)))
  | .lshift a b _ => .ok (s.setAcc (aluLshift (s.reg a) (shiftCount b)))
  | .rshift a b _ => .ok (s.setAcc (aluRshift (s.reg a) (shiftCount b)))
  | .push a _ _ => pushWord (s.reg a) s
  | .pop a _ _ => popWord a s
  | .dumpAccum _ b c => storeWord (memAddress b c) s.acc s
  | .pushAccum _ _ _ => pushWord s.acc s

/-- The execution stage is lines 4 to 6 of the step around the instruction's operation. -/
theorem exec_eq_runOperation (i : Instr) (s : State) :
    exec i s = runOperation (operationOf i) s := by
  cases i <;> rfl

end Sys2Proof.Machine
end

