-- ==== Sys2Proof/Laws/PerInstr.lean ====
section
/-! SUPPORT. Facts about every instruction, one lemma per constructor. -/

namespace Sys2Proof.Laws

/-- An instruction has a word exactly when it is well-formed (spec R53, R54). -/
def EncodeMatchesWellFormed.Statement (i : Instr) : Prop := (encode i).isSome = i.wf

theorem EncodeMatchesWellFormed.halt (a b c : Nibble) :
    EncodeMatchesWellFormed.Statement (.halt a b c) := rfl
theorem EncodeMatchesWellFormed.loadImmediate (a b c : Nibble) :
    EncodeMatchesWellFormed.Statement (.loadImmediate a b c) := rfl
theorem EncodeMatchesWellFormed.nop2 (a b c : Nibble) :
    EncodeMatchesWellFormed.Statement (.nop2 a b c) := rfl
theorem EncodeMatchesWellFormed.dump (a b c : Nibble) :
    EncodeMatchesWellFormed.Statement (.dump a b c) := rfl
theorem EncodeMatchesWellFormed.add (a b c : Nibble) :
    EncodeMatchesWellFormed.Statement (.add a b c) := rfl
theorem EncodeMatchesWellFormed.sub (a b c : Nibble) :
    EncodeMatchesWellFormed.Statement (.sub a b c) := rfl
theorem EncodeMatchesWellFormed.mult (a b c : Nibble) :
    EncodeMatchesWellFormed.Statement (.mult a b c) := rfl
theorem EncodeMatchesWellFormed.div (a b c : Nibble) :
    EncodeMatchesWellFormed.Statement (.div a b c) := rfl
theorem EncodeMatchesWellFormed.and (a b c : Nibble) :
    EncodeMatchesWellFormed.Statement (.and a b c) := rfl
theorem EncodeMatchesWellFormed.or (a b c : Nibble) :
    EncodeMatchesWellFormed.Statement (.or a b c) := rfl
theorem EncodeMatchesWellFormed.not (a b c : Nibble) :
    EncodeMatchesWellFormed.Statement (.not a b c) := rfl
theorem EncodeMatchesWellFormed.xor (a b c : Nibble) :
    EncodeMatchesWellFormed.Statement (.xor a b c) := rfl
theorem EncodeMatchesWellFormed.lshift (a b c : Nibble) :
    EncodeMatchesWellFormed.Statement (.lshift a b c) := rfl
theorem EncodeMatchesWellFormed.rshift (a b c : Nibble) :
    EncodeMatchesWellFormed.Statement (.rshift a b c) := rfl
theorem EncodeMatchesWellFormed.push (a b c : Nibble) :
    EncodeMatchesWellFormed.Statement (.push a b c) := rfl
theorem EncodeMatchesWellFormed.pop (a b c : Nibble) :
    EncodeMatchesWellFormed.Statement (.pop a b c) := rfl
theorem EncodeMatchesWellFormed.dumpAccum (a b c : Nibble) :
    EncodeMatchesWellFormed.Statement (.dumpAccum a b c) := rfl
theorem EncodeMatchesWellFormed.pushAccum (a b c : Nibble) :
    EncodeMatchesWellFormed.Statement (.pushAccum a b c) := rfl

end Sys2Proof.Laws
end

