-- ==== Sys2Proof/Laws/Step.lean ====
section
/-! SUPPORT. Everything taking the next input can do. -/

namespace Sys2Proof.Machine

theorem fetch_idle {s : State} (h : s.inputs = []) : fetch s = .settled s := by
  rw [fetch, h]

theorem fetch_reset {s : State} {rest : List Input} (h : s.inputs = .reset :: rest) :
    fetch s = .settled (acceptReset rest) := by
  rw [fetch, h]

/-- The word is written to the slot and decoded from it. -/
theorem fetch_word_inside {s : State} {w : Word} {rest : List Input}
    (h : s.inputs = .word w :: rest) (hip : s.ip.toNat ≤ 65534) :
    fetch s = .run (decode w) (({ s with inputs := rest } : State).memWrite2 s.ip.toNat w) := by
  rw [fetch, h]
  simp only [slotWrite]
  rw [storeWord_inside w _ (by simpa using Nat.succ_le_succ hip)]
  simp only [slotInstr, State.memWrite2_ip, State.memRead2_memWrite2_same]

/-- The slot is not wholly inside memory: the word is rejected and nothing changes. -/
theorem fetch_word_outside {s : State} {w : Word} {rest : List Input}
    (h : s.inputs = .word w :: rest) (hip : 65534 < s.ip.toNat) :
    fetch s = .settled (takeException .outOfRange { s with inputs := rest }) := by
  rw [fetch, h]
  simp only [slotWrite]
  rw [storeWord_outside w _ (by simpa using Nat.succ_lt_succ hip)]

end Sys2Proof.Machine
end

