-- ==== Sys2Proof/Machine/Flags.lean ====
section
/-! DEFINITION. Flag computations: there are none. The core has no status flags, condition codes or
predicates, no instruction produces a carry, overflow, zero or sign indication, and no instruction
depends on one (spec R22). Register 15, called a flags register by convention, is an ordinary
register (spec R12). So this file defines nothing. -/
end

