-- ==== Sys2Proof/Tests/Slice0.lean ====
section
/-! SUPPORT. Tests: words and vectors of the spec (95_test_vectors.md, named in each comment), and for
each statement that has hypotheses a state and operands that meet them all. -/

namespace Sys2Proof.Tests

open Sys2Proof Sys2Proof.Machine

/-- The next state, where there is one. -/
def next (o : Host.Outcome State Fault Refusal) : Option State :=
  match o with
  | .next t => some t
  | .fault _ => none
  | .refused _ => none

/-- The reset state with `x[1]`, `x[2]` and `acc` = 0x5555, as the vectors of the spec start. -/
def regs12 (x1 x2 : Word) : State := { (State.reset.setReg 1#4 x1).setReg 2#4 x2 with acc := 0x5555#16 }

/-- A state with the stack pointer and `x[1]` given. -/
def stack (sp x1 : Word) : State := { State.reset.setReg 1#4 x1 with sp := sp }

/-- The halted reset state. -/
def haltedState : State := { State.reset with halted := true }

/-- A state whose next input is a word, with `ip` given. -/
def requesting (w : Word) (ip : InstrPtr) : State := { State.reset with inputs := [.word w], ip := ip }

/-! ### WellFormed smoke: ill-formed terms the check refuses (spec R54) -/

theorem test_wf_refuses_dump_accum : Instr.wf (.dumpAccum 0 1 0) = false := by decide
theorem test_wf_refuses_push_accum : Instr.wf (.pushAccum 0 0 0) = false := by decide
theorem test_encode_refuses_dump_accum : encode (.dumpAccum 0 1 0) = none := by decide
theorem test_encode_refuses_push_accum : encode (.pushAccum 0 0 0) = none := by decide

/-! ### Decoding: words of the spec's encoding table and of V-dec -/

theorem test_decode_halt : decode 0b0000_0000_0000_0000#16 = .halt 0 0 0 := by decide
theorem test_decode_load_immediate : decode 0b0001_0111_1010_0000#16 = .loadImmediate 7 10 0 := by decide
theorem test_decode_nop2 : decode 0b0010_1010_1011_1100#16 = .nop2 10 11 12 := by decide
theorem test_decode_dump : decode 0b0011_0001_0000_0100#16 = .dump 1 0 4 := by decide
theorem test_decode_add : decode 0b0100_0001_0010_1111#16 = .add 1 2 15 := by decide
theorem test_decode_sub : decode 0b0101_0001_0010_0000#16 = .sub 1 2 0 := by decide
theorem test_decode_mult : decode 0b0110_0001_0001_0000#16 = .mult 1 1 0 := by decide
theorem test_decode_div : decode 0b0111_0001_0000_0000#16 = .div 1 0 0 := by decide
theorem test_decode_and : decode 0b1000_0001_0010_0000#16 = .and 1 2 0 := by decide
theorem test_decode_or : decode 0b1001_0001_0010_0000#16 = .or 1 2 0 := by decide
theorem test_decode_not : decode 0b1010_0011_0111_1100#16 = .not 3 7 12 := by decide
theorem test_decode_xor : decode 0b1011_0001_0010_0000#16 = .xor 1 2 0 := by decide
theorem test_decode_lshift : decode 0b1100_0001_1111_0000#16 = .lshift 1 15 0 := by decide
theorem test_decode_rshift : decode 0b1101_0001_0011_0000#16 = .rshift 1 3 0 := by decide
theorem test_decode_push : decode 0b1110_0001_0000_0000#16 = .push 1 0 0 := by decide
theorem test_decode_pop : decode 0b1111_0010_0000_0000#16 = .pop 2 0 0 := by decide
theorem test_select_dump_accum : select 0b10000#5 0 1 0 = .dumpAccum 0 1 0 := by decide
theorem test_select_push_accum : select 0b10001#5 0 0 0 = .pushAccum 0 0 0 := by decide
theorem test_decode_truncated : decodeBytes [0x41#8] = .error .truncated := rfl
theorem test_decode_bytes : decodeBytes [0x41#8, 0x20#8, 0x77#8] = .ok (.add 1 2 0, [0x77#8]) := rfl
theorem test_table_word : decodeTableWord 16 0x5120 = some (.sub 1 2 0) := by decide
theorem test_fetch_word :
    (next (step (State.reset.withFetchWord 16 0x1234))).map (fun t => (t.reg 2, t.mem, t.ip)) =
      some (0x0304#16, [(0, 0x12#8), (1, 0x34#8)], 2#17) := by decide

/-! ### One step of each instruction -/

/-- V-step 2. -/
theorem test_halt :
    (next (submit 0x0ABC#16 State.reset)).map (fun t => (t.halted, t.mem, t.ip)) =
      some (true, [(0, 0x0A#8), (1, 0xBC#8)], 2#17) := by decide
/-- V-step 7: while halted a PUSH only writes its slot. -/
theorem test_halted_push :
    (next (submit 0xE100#16 { haltedState with ip := 2#17 })).map (fun t => (t.sp, t.mem, t.ip)) =
      some (65535#16, [(2, 0xE1#8)], 4#17) := by decide
/-- V-step 8: the last slot. -/
theorem test_nop2_last_slot :
    (next (submit 0x2000#16 { State.reset with ip := 65534#17 })).map (fun t => (t.mem, t.ip)) =
      some ([(65534, 0x20#8)], 65536#17) := by decide
/-- V-step 9: past the last slot. -/
theorem test_past_the_end :
    (next (submit 0x1105#16 { State.reset with ip := 65536#17 })).map
        (fun t => (t.mem, t.ip, t.status, t.reg 1)) =
      some ([], 65536#17, some .outOfRange, 0#16) := by decide
/-- V-mov 2. -/
theorem test_load_immediate :
    (next (submit 0x1FFF#16 State.reset)).map (fun t => t.reg 15) = some 0x0F0F#16 := by decide
/-- V-mov 6: the DUMP overwrites its own instruction word. -/
theorem test_dump_own_slot :
    (next (submit 0x3102#16 { regs12 0x0A0B#16 0#16 with ip := 2#17 })).map (fun t => t.mem) =
      some [(2, 0x0A#8), (3, 0x0B#8)] := by decide
/-- V-mov 7: the DUMP straddles the end of its slot. -/
theorem test_dump_straddles :
    (next (submit 0x3105#16 { regs12 0x0A0B#16 0#16 with ip := 4#17 })).map (fun t => t.mem) =
      some [(4, 0x31#8), (5, 0x0A#8), (6, 0x0B#8)] := by decide
/-- V-mov 10. -/
theorem test_dump_accum :
    (next (executionStage 0x10#5 0#4 1#4 0#4 { State.reset with acc := 0xA4C4#16 })).map
        (fun t => t.mem) = some [(256, 0xA4#8), (257, 0xC4#8)] := by decide
/-- V-arith 2. -/
theorem test_add_wraps :
    (next (submit 0x4120#16 (regs12 0xFFFF#16 0x0001#16))).map (fun t => t.acc) =
      some 0x0000#16 := by decide
/-- V-arith 6: the order of the operands. -/
theorem test_sub_borrows :
    (next (submit 0x5120#16 (regs12 0x0003#16 0x0005#16))).map (fun t => t.acc) =
      some 0xFFFE#16 := by decide
/-- V-arith 9. -/
theorem test_mult_low_half :
    (next (submit 0x6110#16 (regs12 0x0F0E#16 0#16))).map (fun t => t.acc) =
      some 0xA4C4#16 := by decide
/-- V-arith 16. -/
theorem test_div_rounds_down :
    (next (submit 0x7120#16 (regs12 0x0F0F#16 0x0102#16))).map (fun t => t.acc) =
      some 0x000E#16 := by decide
/-- V-arith 21: the fault keeps the slot write, `acc` and `ip`. -/
theorem test_div_by_zero :
    (next (submit 0x7120#16 (regs12 0x0005#16 0x0000#16))).map
        (fun t => (t.acc, t.ip, t.status, t.mem)) =
      some (0x5555#16, 0#17, some .divisionByZero, [(0, 0x71#8), (1, 0x20#8)]) := by decide
/-- V-logic 2, 5, 9 and 11. -/
theorem test_and :
    (next (submit 0x8120#16 (regs12 0xFF00#16 0x0FF0#16))).map (fun t => t.acc) = some 0x0F00#16 := by
  decide
theorem test_or :
    (next (submit 0x9120#16 (regs12 0xFF00#16 0x0FF0#16))).map (fun t => t.acc) = some 0xFFF0#16 := by
  decide
theorem test_not_ignores_fields :
    (next (submit 0xA12F#16 (regs12 0x0F0F#16 0x0305#16))).map (fun t => t.acc) = some 0xF0F0#16 := by
  decide
theorem test_xor :
    (next (submit 0xB120#16 (regs12 0xFF00#16 0x0FF0#16))).map (fun t => t.acc) = some 0xF0F0#16 := by
  decide
/-- V-shift 8 and 18: the lost bit, and the count that is the field, not the register. -/
theorem test_lshift_loses_the_top_bit :
    (next (submit 0xC110#16 (regs12 0x8001#16 0#16))).map (fun t => t.acc) = some 0x0002#16 := by decide
theorem test_lshift_count_is_the_field :
    (next (submit 0xC140#16 ((regs12 0x0F0F#16 0#16).setReg 4#4 1#16))).map (fun t => t.acc) =
      some 0xF0F0#16 := by decide
/-- V-shift 16 and 17. -/
theorem test_rshift_fills_with_zero :
    (next (submit 0xD110#16 (regs12 0x8001#16 0#16))).map (fun t => t.acc) = some 0x4000#16 := by decide
theorem test_rshift_by_fifteen :
    (next (submit 0xD1F0#16 (regs12 0xFFFF#16 0#16))).map (fun t => t.acc) = some 0x0001#16 := by decide
/-- V-stack 1. -/
theorem test_push :
    (next (submit 0xE100#16 (stack 65535#16 0x0A0B#16))).map (fun t => (t.mem, t.sp)) =
      some ([(0, 0xE1#8), (65534, 0x0A#8), (65535, 0x0B#8)], 65533#16) := by decide
/-- V-stack 7. -/
theorem test_push_at_the_bottom :
    (next (submit 0xE100#16 (stack 1#16 0x0102#16))).map (fun t => (t.mem, t.sp, t.ip, t.status)) =
      some ([(0, 0xE1#8)], 1#16, 0#17, some .outOfRange) := by decide
/-- V-stack 8. -/
theorem test_pop :
    (next (submit 0xFF00#16
        { State.reset with sp := 65533#16, mem := [(65534, 0x12#8), (65535, 0x34#8)] })).map
        (fun t => (t.reg 15, t.sp)) = some (0x3412#16, 65535#16) := by decide
/-- V-stack 11: a POP reads its own instruction word. -/
theorem test_pop_reads_its_own_word :
    (next (submit 0xF500#16 { State.reset with sp := 32767#16, ip := 32768#17 })).map
        (fun t => (t.reg 5, t.sp, t.ip)) = some (0x00F5#16, 32769#16, 32770#17) := by decide
/-- V-stack 10. -/
theorem test_push_accum :
    (next (executionStage 0x11#5 0#4 0#4 0#4 { State.reset with acc := 0x0002#16 })).map
        (fun t => (t.mem, t.sp)) = some ([(65535, 0x02#8)], 65533#16) := by decide
/-- Spec S8: `0x2A` and `42` are one word. -/
theorem test_request_text :
    parseRequest [48#8, 120#8, 50#8, 65#8] = some 0x002A#16 ∧
      parseRequest [52#8, 50#8] = some 0x002A#16 := by decide
/-- 65536 is outside the range of a word (spec R99). -/
theorem test_request_text_too_large : parseRequest [54#8, 53#8, 53#8, 51#8, 54#8] = none := by decide

/-! ### Witnesses: the hypotheses of each statement can be met -/

theorem witness_FieldsAreTheFourNibblesOfTheWord : (3 : Nat) < 4 := by decide
theorem witness_MatchAndMaskSelectTheInstruction :
    ((fields 0x4120#16).a = 1#4 ∧ (fields 0x4120#16).b = 2#4 ∧ (fields 0x4120#16).c = 0#4) ∧
      ∃ sel sel' sel'' : OpSel, sel = 0x10#5 ∧ sel' = 0x11#5 ∧ 0x12 ≤ sel''.toNat ∧ sel'' = 0x12#5 := by
  exact ⟨by decide, 0x10#5, 0x11#5, 0x12#5, by decide⟩
theorem witness_DecodeOfEncodeIsTheInstruction : Instr.wf (.pop 15 15 15) = true := by decide
theorem witness_ImmediateIsTwoNibblesInTwoBytes : (0 : Nat) < 4 := by decide
theorem witness_ResetHoldsTheStatedValues : (65535 : Nat) ≤ 65535 := by decide
theorem witness_ResetEventRestoresTheResetState :
    ∃ (s : State) (rest : List Input), s.inputs = .reset :: rest :=
  ⟨{ haltedState with inputs := [.reset, .word 0x1105#16] }, [.word 0x1105#16], rfl⟩
theorem witness_NothingHappensWithoutARequest : haltedState.inputs = [] := rfl
theorem witness_StepRunsTheDecodedInstruction :
    (requesting 0x4120#16 65534#17).inputs = [.word 0x4120#16] ∧
      (requesting 0x4120#16 65534#17).ip.toNat ≤ 65534 := ⟨rfl, by decide⟩
theorem witness_SlotOutsideMemoryRejectsTheStep :
    (requesting 0x4120#16 65535#17).inputs = [.word 0x4120#16] ∧
      65534 < (requesting 0x4120#16 65535#17).ip.toNat := ⟨rfl, by decide⟩
theorem witness_EveryWordIsAnsweredWithAStatus :
    (requesting 0xF100#16 0#17).inputs = [.word 0xF100#16] := rfl
theorem witness_OkStepsAndNothingElseAdvanceIp_ok :
    (requesting 0x2000#16 65534#17).inputs = [.word 0x2000#16] ∧
      (next (step (requesting 0x2000#16 65534#17))).map (fun t => t.status) = some (some .ok) :=
  ⟨rfl, by decide⟩
theorem witness_OkStepsAndNothingElseAdvanceIp_fault :
    (requesting 0xF100#16 0#17).inputs = [.word 0xF100#16] ∧
      (next (step (requesting 0xF100#16 0#17))).map (fun t => t.status) = some (some .outOfRange) :=
  ⟨rfl, by decide⟩
theorem witness_HaltedInstructionOnlyAdvances : haltedState.halted = true := rfl
theorem witness_HaltedStepWritesTheSlotAndAdvances :
    ∃ s : State, s.inputs = [.word 0x7100#16] ∧ s.halted = true ∧ s.ip.toNat ≤ 65534 :=
  ⟨{ haltedState with inputs := [.word 0x7100#16], ip := 65534#17 }, rfl, rfl, by decide⟩
theorem witness_HaltIsTheOnlyTransition :
    (∃ s : State, s.inputs = [.word 0x0000#16] ∧ s.halted = false) ∧
      (∃ s : State, s.inputs = [.word 0x0000#16] ∧ s.halted = true) ∧
      (∃ s : State, s.inputs = [.word 0xF100#16] ∧
        (next (step s)).map (fun t => t.status) = some (some .outOfRange)) ∧
      (∃ s : State, s.inputs = [.reset]) ∧ ∃ s : State, s.inputs = [] :=
  ⟨⟨requesting 0x0000#16 0#17, rfl, rfl⟩,
    ⟨{ haltedState with inputs := [.word 0x0000#16] }, rfl, rfl⟩,
    ⟨requesting 0xF100#16 0#17, rfl, by decide⟩,
    ⟨{ haltedState with inputs := [.reset] }, rfl⟩, ⟨haltedState, rfl⟩⟩
theorem witness_FaultKeepsAllButTheSlot :
    ∃ s t : State, s.inputs = [.word 0x7100#16] ∧ s.ip.toNat ≤ 65534 ∧ step s = .next t ∧
      t.status ≠ some .ok :=
  ⟨requesting 0x7100#16 65534#17, _, rfl, by decide, rfl, by decide⟩
theorem witness_RepeatedFaultLeavesTheSameState :
    ∃ s t : State, Memory.wf s.mem = true ∧ submit 0x7100#16 s = .next t ∧ t.status ≠ some .ok :=
  ⟨State.reset, _, rfl, rfl, by decide⟩
/-- A DUMP to addresses 4 and 5 from the slot at 0, and the byte at 3. -/
theorem witness_StepWritesOnlySlotAndStoredBytes :
    ∃ s t : State, s.inputs = [.word 0x3104#16] ∧ step s = .next t ∧ 3 ≠ s.ip.toNat ∧
      3 ≠ s.ip.toNat + 1 ∧ storeAddress (decode 0x3104#16) s = some 4 ∧
      ∀ m : Nat, storeAddress (decode 0x3104#16) s = some m → 3 ≠ m ∧ 3 ≠ m + 1 := by
  have h : storeAddress (decode 0x3104#16) (requesting 0x3104#16 0#17) = some 4 := by decide
  refine ⟨requesting 0x3104#16 0#17, _, rfl, rfl, by decide, by decide, h, ?_⟩
  intro m hm
  rw [h] at hm
  cases hm
  decide
theorem witness_OnlyLoadImmediateAndPopWriteRegisters :
    ∃ s t : State, exec (.loadImmediate 1 0 5) s = .next t ∧ t.reg 1 ≠ s.reg 1 :=
  ⟨State.reset, _, rfl, by decide⟩
theorem witness_OnlyAluInstructionsWriteTheAccumulator :
    ∃ s t : State, exec (.not 1 0 0) s = .next t ∧ t.acc ≠ s.acc :=
  ⟨State.reset, _, rfl, by decide⟩
theorem witness_OnlyStackInstructionsMoveTheStackPointer :
    (∃ s t : State, exec (.push 1 0 0) s = .next t ∧ t.sp ≠ s.sp) ∧
      ∃ s t : State, exec (.pop 1 0 0) s = .next t ∧ t.sp ≠ s.sp :=
  ⟨⟨stack 2#16 7#16, _, rfl, by decide⟩, ⟨stack 65533#16 7#16, _, rfl, by decide⟩⟩
theorem witness_EveryStepKeepsTheInvariant :
    ∃ s t : State, s.Inv ∧ step s = .next t :=
  ⟨requesting 0xE100#16 65534#17, _, by decide, rfl⟩
theorem witness_HaltHaltsTheCore : State.reset.halted = false ∧ haltedState.halted = true := by decide
theorem witness_UnassignedOperationDoesNothing : 0x12 ≤ (0x12#5 : OpSel).toNat := by decide
theorem witness_LoadImmediateLoadsTheTwoNibbles : (stack 1#16 0xBEEF#16).halted = false := rfl
theorem witness_DumpStoresTheRegister : (stack 1#16 0xBEEF#16).halted = false := rfl
theorem witness_DumpAccumStoresTheAccumulator : (regs12 0#16 0#16).halted = false := rfl
theorem witness_AddWritesTheSumModulo65536 : (regs12 0xFFFF#16 1#16).halted = false := rfl
theorem witness_SubWritesTheDifferenceModulo65536 :
    (regs12 0#16 1#16).halted = false ∧
      ((regs12 0#16 1#16).reg 1).toNat < ((regs12 0#16 1#16).reg 2).toNat := ⟨rfl, by decide⟩
theorem witness_MultWritesTheProductModulo65536 : (regs12 0xFFFF#16 0xFFFF#16).halted = false := rfl
theorem witness_DivWritesTheQuotientRoundedDown :
    (regs12 7#16 1#16).halted = false ∧ (regs12 7#16 1#16).reg 2 ≠ 0#16 := ⟨rfl, by decide⟩
theorem witness_DivisionByZeroIsRaisedExactlyByDivByZero :
    ((∃ a b c : Nibble, Instr.div 1 2 0 = .div a b c ∧ (regs12 5#16 0#16).reg b = 0#16) ∧
        (regs12 5#16 0#16).halted = false) ∧
      ∃ t : State, exec (.div 1 2 0) (regs12 5#16 0#16) = .next t ∧ t.status = some .divisionByZero :=
  ⟨⟨⟨1, 2, 0, rfl, by decide⟩, rfl⟩, _, rfl, by decide⟩
theorem witness_AndWritesTheBitwiseConjunction : (regs12 5#16 3#16).halted = false := rfl
theorem witness_OrWritesTheBitwiseDisjunction : (regs12 5#16 3#16).halted = false := rfl
theorem witness_NotWritesTheComplement : (regs12 5#16 3#16).halted = false ∧ 15 < 16 := by decide
theorem witness_XorWritesTheBitwiseDifference : (regs12 5#16 3#16).halted = false := rfl
theorem witness_LshiftMultipliesByAPowerOfTwo : (regs12 5#16 3#16).halted = false ∧ 15 < 16 := by decide
theorem witness_RshiftDividesByAPowerOfTwo : (regs12 5#16 3#16).halted = false := rfl
theorem witness_PushStoresTheRegisterBelowTheStack :
    (stack 2#16 7#16).halted = false ∧ 2 ≤ (stack 2#16 7#16).sp.toNat := by decide
theorem witness_PopLoadsTheEntryAboveTheStack :
    (stack 65533#16 7#16).halted = false ∧ (stack 65533#16 7#16).sp.toNat ≤ 65533 := by decide
theorem witness_PushAccumStoresTheAccumulatorBelowTheStack :
    (stack 2#16 7#16).halted = false ∧ 2 ≤ (stack 2#16 7#16).sp.toNat := by decide
theorem witness_OutOfRangeIsRaisedExactlyAtTheEndsOfTheStack_push :
    (∃ a b c : Nibble, Instr.push 1 0 0 = .push a b c ∨ Instr.push 1 0 0 = .pushAccum a b c) ∧
      (stack 1#16 7#16).sp.toNat < 2 ∧ (stack 1#16 7#16).halted = false ∧
      ∃ t : State, exec (.push 1 0 0) (stack 1#16 7#16) = .next t ∧ t.status = some .outOfRange :=
  ⟨⟨1, 0, 0, .inl rfl⟩, by decide, rfl, _, rfl, by decide⟩
theorem witness_OutOfRangeIsRaisedExactlyAtTheEndsOfTheStack_pop :
    (∃ a b c : Nibble, Instr.pop 1 0 0 = .pop a b c) ∧ 65533 < (stack 65534#16 7#16).sp.toNat ∧
      (stack 65534#16 7#16).halted = false ∧
      ∃ t : State, exec (.pop 1 0 0) (stack 65534#16 7#16) = .next t ∧ t.status = some .outOfRange :=
  ⟨⟨1, 0, 0, rfl⟩, by decide, rfl, _, rfl, by decide⟩
theorem witness_PushThenPopExchangesTheBytes :
    (stack 2#16 0x0A0B#16).halted = false ∧ 2 ≤ (stack 2#16 0x0A0B#16).sp.toNat := by decide
theorem witness_AccumulatorInfluencesNothing :
    ∃ s t : State, runWords [0x4120#16, 0xE100#16, 0xF200#16] s = .next t :=
  ⟨regs12 3#16 4#16, _, rfl⟩
theorem witness_MemoryInfluencesOnlyPop :
    (∀ w ∈ [0xE100#16], ∀ a b c : Nibble, decode w ≠ .pop a b c) ∧
      ∃ s t : State, runWords [0xE100#16] s = .next t := by
  refine ⟨?_, regs12 3#16 4#16, _, rfl⟩
  intro w hw a b c
  rw [List.mem_singleton.mp hw, show decode 0xE100#16 = .push 1 0 0 by decide]
  intro h
  cases h
theorem witness_BytesBelowIpAreNeverWrittenAgain :
    (∀ w ∈ [0x1105#16, 0x4120#16], ∀ u : State, storeAddress (decode w) u = none) ∧
      ∃ s t : State, runWords [0x1105#16, 0x4120#16] s = .next t ∧ 1 < s.ip.toNat := by
  refine ⟨?_, { State.reset with ip := 2#17 }, _, rfl, by decide⟩
  intro w hw u
  rcases List.mem_cons.mp hw with rfl | hw
  · rfl
  · rw [List.mem_singleton.mp hw]
    rfl
theorem witness_ObservationListsExactlyTheNonzeroCells :
    Memory.wf [(0, 0x11#8), (65535, 0x0B#8)] = true := by decide
theorem witness_ObservationDeterminesTheState :
    observe State.reset = observe (requesting 0x1105#16 0#17) := rfl
theorem witness_RacingRequestsEndAsOneOrderOrTheOther :
    ∃ t : State, Interleaving [0x1105#16] [0x1107#16] [0x1107#16, 0x1105#16] ∧
      runWords [0x1107#16, 0x1105#16] State.reset = .next t :=
  ⟨_, .second _ (.first _ .done), rfl⟩

end Sys2Proof.Tests
end

/-! The encoding (spec/30_encoding.md): a word is its four nibbles (R46, R47), and the immediate is
two nibbles in two bytes (R50). -/

namespace Sys2Proof

/-! ### The fields of a word (spec R46) -/

theorem fields_op_getLsbD (w : Word) {i : Nat} (hi : i < 4) :
    (fields w).op.getLsbD i = w.getLsbD (12 + i) := by
  simp [fields, hi]

theorem fields_a_getLsbD (w : Word) {i : Nat} (hi : i < 4) :
    (fields w).a.getLsbD i = w.getLsbD (8 + i) := by
  simp [fields, hi]

theorem fields_b_getLsbD (w : Word) {i : Nat} (hi : i < 4) :
    (fields w).b.getLsbD i = w.getLsbD (4 + i) := by
  simp [fields, hi]

theorem fields_c_getLsbD (w : Word) {i : Nat} (hi : i < 4) :
    (fields w).c.getLsbD i = w.getLsbD i := by
  simp [fields, hi]

/-- The bit range and the shift-and-mask form of a field are one value: masking with 0xF = 2^4 - 1 is
the remainder modulo 2^4. -/
theorem setWidth_extractLsb'_eq_shift_and_mask (w : Word) (k : Nat) :
    (w.extractLsb' k 4).setWidth 16 = (w >>> k &&& 0xF#16) := by
  apply BitVec.eq_of_toNat_eq
  rw [BitVec.toNat_setWidth_of_le (by decide), BitVec.extractLsb'_toNat, BitVec.toNat_and,
    BitVec.toNat_ushiftRight]
  exact (Nat.and_two_pow_sub_one_eq_mod _ 4).symm

/-- Two words with the same four fields have the same sixteen bits. -/
theorem fields_injective {v w : Word} (h : fields v = fields w) : v = w := by
  refine BitVec.eq_of_getLsbD_eq fun i hi => ?_
  obtain hc | hb | ha | hop : i < 4 ∨ (4 ≤ i ∧ i < 8) ∨ (8 ≤ i ∧ i < 12) ∨ 12 ≤ i := by omega
  · rw [← fields_c_getLsbD v hc, h, fields_c_getLsbD w hc]
  · obtain ⟨j, rfl⟩ := Nat.exists_eq_add_of_le hb.1
    rw [← fields_b_getLsbD v (by omega), h, fields_b_getLsbD w (by omega)]
  · obtain ⟨j, rfl⟩ := Nat.exists_eq_add_of_le ha.1
    rw [← fields_a_getLsbD v (by omega), h, fields_a_getLsbD w (by omega)]
  · obtain ⟨j, rfl⟩ := Nat.exists_eq_add_of_le hop
    rw [← fields_op_getLsbD v (by omega), h, fields_op_getLsbD w (by omega)]

/-! ### The word of four fields (spec R47) -/

/-- The shifted nibbles do not overlap, so their disjunction is the four nibbles side by side. -/
theorem assemble_eq_append (f : Fields) : assemble f = f.op ++ f.a ++ f.b ++ f.c := by
  rw [← BitVec.setWidth_eq (f.op ++ f.a ++ f.b ++ f.c),
    BitVec.setWidth_append_append_append_eq_shiftLeft_setWidth_or, assemble]

/-- The fields of an assembled word are the fields it was made of. -/
@[simp] theorem fields_assemble (f : Fields) : fields (assemble f) = f := by
  obtain ⟨op, a, b, c⟩ := f
  rw [assemble_eq_append, fields, Fields.mk.injEq]
  refine ⟨?hop, ?ha, ?hb, ?hc⟩
  case hc => exact BitVec.extractLsb'_append_eq_right
  case hb =>
    rw [BitVec.extractLsb'_append_eq_of_le (by decide)]
    exact BitVec.extractLsb'_append_eq_right
  case ha =>
    rw [BitVec.extractLsb'_append_eq_of_le (by decide),
      BitVec.extractLsb'_append_eq_of_le (by decide)]
    exact BitVec.extractLsb'_append_eq_right
  case hop =>
    rw [BitVec.extractLsb'_append_eq_of_le (by decide),
      BitVec.extractLsb'_append_eq_of_le (by decide)]
    exact BitVec.extractLsb'_append_eq_left

/-- A word is assembled from its own fields. -/
@[simp] theorem assemble_fields (w : Word) : assemble (fields w) = w :=
  fields_injective (fields_assemble (fields w))

/-! ### The bytes of a word (spec R8) -/

theorem hiByte_getLsbD (w : Word) {i : Nat} (hi : i < 8) :
    (hiByte w).getLsbD i = w.getLsbD (8 + i) := by
  simp [hiByte, hi]

theorem loByte_getLsbD (w : Word) {i : Nat} (hi : i < 8) :
    (loByte w).getLsbD i = w.getLsbD i := by
  simp [loByte, hi]

theorem joinBytes_toNat (hi lo : Byte) : (joinBytes hi lo).toNat = 256 * hi.toNat + lo.toNat := by
  have hjoin : joinBytes hi lo = hi ++ lo := by
    rw [← BitVec.setWidth_eq (hi ++ lo), BitVec.setWidth_append_eq_shiftLeft_setWidth_or, joinBytes]
  rw [hjoin, BitVec.toNat_append, ← Nat.shiftLeft_add_eq_or_of_lt lo.isLt, Nat.shiftLeft_eq,
    Nat.mul_comm]

end Sys2Proof

namespace Sys2Proof.Machine

/-! ### The immediate (spec R50) -/

/-- The immediate is the word with `b` as its high byte and `c` as its low byte, zero-extended. -/
theorem immediate_eq_joinBytes (b c : Nibble) :
    immediate b c = joinBytes (b.setWidth 8) (c.setWidth 8) := by
  rw [immediate, joinBytes, BitVec.setWidth_setWidth (by decide),
    BitVec.setWidth_setWidth (by decide)]

@[simp] theorem hiByte_immediate (b c : Nibble) : hiByte (immediate b c) = b.setWidth 8 := by
  rw [immediate_eq_joinBytes, hiByte_joinBytes]

@[simp] theorem loByte_immediate (b c : Nibble) : loByte (immediate b c) = c.setWidth 8 := by
  rw [immediate_eq_joinBytes, loByte_joinBytes]

theorem immediate_toNat (b c : Nibble) : (immediate b c).toNat = 256 * b.toNat + c.toNat := by
  rw [immediate_eq_joinBytes, joinBytes_toNat, BitVec.toNat_setWidth_of_le (by decide),
    BitVec.toNat_setWidth_of_le (by decide)]

theorem immediate_getLsbD_hi (b c : Nibble) {i : Nat} (hi : i < 8) :
    (immediate b c).getLsbD (8 + i) = b.getLsbD i := by
  rw [← hiByte_getLsbD _ hi, hiByte_immediate, BitVec.getLsbD_setWidth, decide_eq_true hi,
    Bool.true_and]

theorem immediate_getLsbD_lo (b c : Nibble) {i : Nat} (hi : i < 8) :
    (immediate b c).getLsbD i = c.getLsbD i := by
  rw [← loByte_getLsbD _ hi, loByte_immediate, BitVec.getLsbD_setWidth, decide_eq_true hi,
    Bool.true_and]

end Sys2Proof.Machine

/-! ### The obligations on fields and immediates -/

namespace Sys2Proof.Proofs

open Sys2Proof Sys2Proof.Machine

/-- Settles O2: `assemble` is the rule's own expression, and `fields` is its inverse on both sides. -/
theorem decodedNibblesReassembleToTheWord : Obligations.DecodedNibblesReassembleToTheWord :=
  ⟨assemble_fields, assemble_fields, fields_assemble⟩

/-- Settles O1: each field is a range of four bits, and so the shift and mask of the rule. -/
theorem fieldsAreTheFourNibblesOfTheWord : Obligations.FieldsAreTheFourNibblesOfTheWord := by
  intro w
  refine ⟨setWidth_extractLsb'_eq_shift_and_mask w 12, setWidth_extractLsb'_eq_shift_and_mask w 8,
    setWidth_extractLsb'_eq_shift_and_mask w 4, ?c, fun i hi => ⟨fields_op_getLsbD w hi,
      fields_a_getLsbD w hi, fields_b_getLsbD w hi, fields_c_getLsbD w hi⟩⟩
  case c =>
    rw [← BitVec.ushiftRight_zero w]
    exact setWidth_extractLsb'_eq_shift_and_mask w 0

/-- Settles O7: the immediate is two zero-extended nibbles, one in each byte; a bit above a nibble is
a bit past its width. -/
theorem immediateIsTwoNibblesInTwoBytes : Obligations.ImmediateIsTwoNibblesInTwoBytes := by
  intro b c
  refine ⟨rfl, rfl, immediate_toNat b c, memAddress_le b c, hiByte_immediate b c,
    loByte_immediate b c, fun i hi => ⟨?_, immediate_getLsbD_hi b c (by omega), ?_,
      immediate_getLsbD_lo b c (by omega)⟩⟩
  · rw [show 12 + i = 8 + (4 + i) by omega, immediate_getLsbD_hi b c (by omega)]
    exact BitVec.getLsbD_of_ge b _ (Nat.le_add_right 4 i)
  · rw [immediate_getLsbD_lo b c (by omega)]
    exact BitVec.getLsbD_of_ge c _ (Nat.le_add_right 4 i)

end Sys2Proof.Proofs

/-! Control (spec/40_step_and_control.md): the end of an instruction (R60, R63), HALT (R64), and the
no-op of the unassigned selects (R65). -/

namespace Sys2Proof

/-! ### Decoding an assembled word, and the unassigned selects -/

/-- The instruction of an assembled word is the one its `op` selects, with its operand nibbles. -/
theorem decode_assemble (f : Fields) : decode (assemble f) = select (opselOf f.op) f.a f.b f.c := by
  rw [decode, fields_assemble]

/-- A select above 0x11 is none of the assigned values, so it falls to the last row of the map. -/
theorem select_unassigned {sel : OpSel} (h : 0x12 ≤ sel.toNat) (a b c : Nibble) :
    select sel a b c = .nop2 a b c := by
  unfold select
  split
  case h_19 => rfl
  all_goals omega

end Sys2Proof

namespace Sys2Proof.Machine

/-! ### The end of an instruction -/

/-- Completing a state that kept the `ip` and the requests of `s` ends the step from `s` with Ok. -/
theorem endedOk_complete {s u : State} (hip : u.ip = s.ip) (hinputs : u.inputs = s.inputs) :
    EndedOk s (complete u) := by
  rw [EndedOk, complete_status, complete_ip, complete_inputs, hip, hinputs]
  exact ⟨rfl, rfl, rfl⟩

/-- While halted, every instruction is the advance alone. -/
theorem exec_of_halted (i : Instr) {s : State} (h : s.halted = true) :
    exec i s = .next (complete s) := by
  rw [exec_eq_runOperation, runOperation_halted _ h]

/-- While running, an instruction whose operation succeeds ends with the advance. -/
theorem exec_of_operation_ok {i : Instr} {s u : State} (h : s.halted = false)
    (ho : operationOf i s = .ok u) : exec i s = .next (complete u) := by
  rw [exec_eq_runOperation, runOperation_ok h ho]

theorem exec_halt_of_running (a b c : Nibble) {s : State} (h : s.halted = false) :
    exec (.halt a b c) s = .next (complete { s with halted := true }) :=
  exec_of_operation_ok h rfl

/-- The no-op is the advance alone, running or halted. -/
theorem exec_nop2 (a b c : Nibble) (s : State) : exec (.nop2 a b c) s = .next (complete s) := by
  cases h : s.halted with
  | true => exact exec_of_halted _ h
  | false => exact exec_of_operation_ok h rfl

/-! ### The step of a delivered word -/

/-- A word delivered inside memory is stored to the slot, and its instruction executed after that. -/
theorem step_word_inside {s : State} {w : Word} {rest : List Input}
    (h : s.inputs = .word w :: rest) (hip : s.ip.toNat ≤ 65534) :
    step s = exec (decode w) (({ s with inputs := rest } : State).memWrite2 s.ip.toNat w) := by
  rw [step, fetch_word_inside h hip]

theorem submit_inside (w : Word) {s : State} (hip : s.ip.toNat ≤ 65534) :
    submit w s = exec (decode w) (({ s with inputs := [] } : State).memWrite2 s.ip.toNat w) :=
  step_word_inside rfl hip

end Sys2Proof.Machine

/-! ### The obligations on HALT and the no-op -/

namespace Sys2Proof.Proofs

open Sys2Proof Sys2Proof.Machine

/-- Settles O30: a running HALT completes the state with `halted` set, and a halted one the state as it
is; no other field differs. -/
theorem haltHaltsTheCore : Obligations.HaltHaltsTheCore := by
  refine ⟨?word, ?running, ?halted, ?fromReset⟩
  case word =>
    intro a b c
    exact decode_assemble ⟨0x0#4, a, b, c⟩
  case running =>
    intro a b c s h
    exact ⟨_, exec_halt_of_running a b c h, rfl, endedOk_complete rfl rfl, fun _ => rfl, rfl, rfl,
      fun _ => rfl⟩
  case halted =>
    intro a b c s h
    exact ⟨_, exec_of_halted _ h, h, endedOk_complete rfl rfl⟩
  case fromReset =>
    rw [submit_inside _ (by decide), show decode 0x0000#16 = .halt 0 0 0 by decide,
      exec_halt_of_running 0 0 0 rfl]
    rfl

/-- Settles O31: the no-op completes the state as it is, and every unassigned select is the no-op. -/
theorem unassignedOperationDoesNothing : Obligations.UnassignedOperationDoesNothing := by
  refine ⟨?word, ?frame, ?selects, ?fromReset⟩
  case word =>
    intro a b c
    exact decode_assemble ⟨0x2#4, a, b, c⟩
  case frame =>
    intro a b c s
    exact ⟨_, exec_nop2 a b c s, endedOk_complete rfl rfl, fun _ => rfl, rfl, rfl, rfl, fun _ => rfl⟩
  case selects =>
    intro sel a b c s h
    rw [executionStage, select_unassigned h]
  case fromReset =>
    rw [submit_inside _ (by decide), show decode 0x2ABC#16 = .nop2 10 11 12 by decide, exec_nop2]
    rfl

end Sys2Proof.Proofs

/-! Data movement (spec/41_data_movement.md): what a stored word leaves in memory, LOAD_IMMEDIATE (R69),
and DUMP (R70). -/

namespace Sys2Proof.Machine

/-! ### A stored word, and its address -/

/-- A stored word stands at its address, high byte first. -/
theorem holdsWord_memWrite2 (n : Nat) (v : Word) (s : State) : HoldsWord n v (s.memWrite2 n v) :=
  ⟨s.memWrite2_read_hi n v, s.memWrite2_read_lo n v⟩

/-- A stored word changes no byte but its own two. -/
theorem sameMemoryOutside_memWrite2 (n : Nat) (v : Word) (s : State) :
    SameMemoryOutside n s (s.memWrite2 n v) :=
  fun _ hn hn' => s.memWrite2_read_other v hn hn'

theorem memAddress_eq (b c : Nibble) : memAddress b c = 256 * b.toNat + c.toNat :=
  immediate_toNat b c

/-- The range check of a store at two nibbles never fails: the address is at most 0x0F0F (spec R29). -/
theorem storeWord_memAddress (b c : Nibble) (v : Word) (s : State) :
    storeWord (memAddress b c) v s = .ok (s.memWrite2 (memAddress b c) v) :=
  storeWord_inside v s (Nat.succ_le_succ ((memAddress_le b c).trans (by decide)))

/-! ### The two instructions, while running -/

theorem exec_loadImmediate_of_running (a b c : Nibble) {s : State} (h : s.halted = false) :
    exec (.loadImmediate a b c) s = .next (complete (s.setReg a (immediate b c))) :=
  exec_of_operation_ok h rfl

/-- A running DUMP never faults. -/
theorem exec_dump_of_running (a b c : Nibble) {s : State} (h : s.halted = false) :
    exec (.dump a b c) s = .next (complete (s.memWrite2 (memAddress b c) (s.reg a))) :=
  exec_of_operation_ok h (storeWord_memAddress b c (s.reg a) s)

end Sys2Proof.Machine

/-! ### The obligations on LOAD_IMMEDIATE and DUMP -/

namespace Sys2Proof.Proofs

open Sys2Proof Sys2Proof.Machine

/-- Settles O32: the instruction completes the state in which `x[a]` is the immediate, and a register
write reaches no other register and no other field. -/
theorem loadImmediateLoadsTheTwoNibbles : Obligations.LoadImmediateLoadsTheTwoNibbles := by
  refine ⟨?word, ?running⟩
  case word =>
    intro a b c
    exact decode_assemble ⟨0x1#4, a, b, c⟩
  case running =>
    intro a b c s h
    refine ⟨_, exec_loadImmediate_of_running a b c h, ?value, endedOk_complete rfl rfl, ?otherRegs,
      rfl, rfl, rfl, fun _ => rfl⟩
    case value => rw [reg_complete, State.reg_setReg_same, immediate_toNat]
    case otherRegs =>
      intro r hr
      rw [reg_complete, State.reg_setReg_other s hr]

/-- Settles O33: the instruction completes the state in which `x[a]` is stored at the address; the store
is inside memory for every two nibbles and reaches its own two bytes alone. -/
theorem dumpStoresTheRegister : Obligations.DumpStoresTheRegister := by
  refine ⟨?word, ?running⟩
  case word =>
    intro a b c
    exact decode_assemble ⟨0x3#4, a, b, c⟩
  case running =>
    intro a b c s h
    exact ⟨_, exec_dump_of_running a b c h, memAddress_eq b c,
      holdsWord_memWrite2 (memAddress b c) (s.reg a) s,
      sameMemoryOutside_memWrite2 (memAddress b c) (s.reg a) s, endedOk_complete rfl rfl,
      fun _ => rfl, rfl, rfl, rfl⟩

end Sys2Proof.Proofs

/-! Arithmetic (spec/42_arithmetic.md): what an instruction that writes only the accumulator leaves, and
ADD (R73), SUB (R74) and MULT (R75), exact results kept modulo 65536 (R72). -/

namespace Sys2Proof.Machine

/-! ### Writing the accumulator -/

/-- A completed accumulator write reaches no other field. -/
theorem wroteOnlyAcc_complete_setAcc (v : Word) (s : State) :
    WroteOnlyAcc s (complete (s.setAcc v)) :=
  ⟨endedOk_complete rfl rfl, fun _ => rfl, rfl, rfl, fun _ => rfl⟩

/-- While running, an instruction whose operation is an accumulator write changes `acc` alone. -/
theorem exec_writes_acc_of_running (i : Instr) {s : State} {v : Word} (h : s.halted = false)
    (ho : operationOf i s = .ok (s.setAcc v)) :
    ∃ t : State, exec i s = .next t ∧ WroteOnlyAcc s t ∧ t.acc = v :=
  ⟨_, exec_of_operation_ok h ho, wroteOnlyAcc_complete_setAcc v s, rfl⟩

/-! ### The results modulo 65536 (spec R72) -/

theorem aluAdd_toNat (x y : Word) : (aluAdd x y).toNat = (x.toNat + y.toNat) % 65536 :=
  BitVec.toNat_ofNat _ _

theorem aluMult_toNat (x y : Word) : (aluMult x y).toNat = x.toNat * y.toNat % 65536 :=
  BitVec.toNat_ofNat _ _

/-- The remainder is the one in 0 to 65535, also of a negative difference. -/
theorem aluSub_toNat (x y : Word) :
    ((aluSub x y).toNat : Int) = ((x.toNat : Int) - y.toNat) % 65536 := by
  rw [aluSub, BitVec.toNat_ofInt]
  exact Int.toNat_of_nonneg (Int.emod_nonneg _ (by decide))

/-- The difference of two words is above -65536, so one wrap brings it into range. -/
theorem wordDifference_emod (x y : Word) :
    ((x.toNat : Int) - y.toNat) % 65536 =
      (x.toNat : Int) - y.toNat + if x.toNat < y.toNat then 65536 else 0 := by
  have hx := x.isLt
  have hy := y.isLt
  split
  case isTrue hlt => omega
  case isFalse hge => omega

end Sys2Proof.Machine

/-! ### The obligations on ADD, SUB and MULT -/

namespace Sys2Proof.Proofs

open Sys2Proof Sys2Proof.Machine

/-- Settles O35: the operation of ADD is an accumulator write of the sum. -/
theorem addWritesTheSumModulo65536 : Obligations.AddWritesTheSumModulo65536 := by
  refine ⟨?word, ?running⟩
  case word =>
    intro a b c
    exact decode_assemble ⟨0x4#4, a, b, c⟩
  case running =>
    intro a b c s h
    obtain ⟨t, hexec, hframe, hacc⟩ := exec_writes_acc_of_running (.add a b c) h rfl
    exact ⟨t, hexec, hframe, hacc ▸ aluAdd_toNat (s.reg a) (s.reg b)⟩

/-- Settles O36: the operation of SUB is an accumulator write of the difference, which one wrap brings
into range. -/
theorem subWritesTheDifferenceModulo65536 : Obligations.SubWritesTheDifferenceModulo65536 := by
  refine ⟨?word, ?running⟩
  case word =>
    intro a b c
    exact decode_assemble ⟨0x5#4, a, b, c⟩
  case running =>
    intro a b c s h
    obtain ⟨t, hexec, hframe, hacc⟩ := exec_writes_acc_of_running (.sub a b c) h rfl
    have hmod : (t.acc.toNat : Int) = ((s.reg a).toNat - (s.reg b).toNat : Int) % 65536 :=
      hacc ▸ aluSub_toNat (s.reg a) (s.reg b)
    exact ⟨t, hexec, hframe, hmod, hmod.trans (wordDifference_emod (s.reg a) (s.reg b))⟩

/-- Settles O37: the operation of MULT is an accumulator write of the product. -/
theorem multWritesTheProductModulo65536 : Obligations.MultWritesTheProductModulo65536 := by
  refine ⟨?word, ?running⟩
  case word =>
    intro a b c
    exact decode_assemble ⟨0x6#4, a, b, c⟩
  case running =>
    intro a b c s h
    obtain ⟨t, hexec, hframe, hacc⟩ := exec_writes_acc_of_running (.mult a b c) h rfl
    exact ⟨t, hexec, hframe, hacc ▸ aluMult_toNat (s.reg a) (s.reg b)⟩

end Sys2Proof.Proofs

/-! Logic (spec/43_logic.md): the bits of the four results, and AND (R79), OR (R80), NOT (R81) and
XOR (R82). -/

namespace Sys2Proof.Machine

/-! ### The results, bit by bit -/

theorem aluAnd_getLsbD (x y : Word) (i : Nat) :
    (aluAnd x y).getLsbD i = (x.getLsbD i && y.getLsbD i) :=
  BitVec.getLsbD_and

theorem aluOr_getLsbD (x y : Word) (i : Nat) :
    (aluOr x y).getLsbD i = (x.getLsbD i || y.getLsbD i) :=
  BitVec.getLsbD_or

theorem aluXor_getLsbD (x y : Word) (i : Nat) :
    (aluXor x y).getLsbD i = (x.getLsbD i ^^ y.getLsbD i) :=
  BitVec.getLsbD_xor

/-- Unlike the other three, the complement says this only of the bits a word has: past bit 15 both
words read as 0. -/
theorem aluNot_getLsbD (x : Word) {i : Nat} (hi : i < 16) :
    (aluNot x).getLsbD i = !x.getLsbD i := by
  rw [aluNot, BitVec.getLsbD_not, decide_eq_true hi, Bool.true_and]

theorem aluNot_toNat (x : Word) : (aluNot x).toNat = 65535 - x.toNat :=
  BitVec.toNat_not

end Sys2Proof.Machine

/-! ### The obligations on AND, OR, NOT and XOR -/

namespace Sys2Proof.Proofs

open Sys2Proof Sys2Proof.Machine

/-- Settles O40: the operation of AND is an accumulator write of the conjunction. -/
theorem andWritesTheBitwiseConjunction : Obligations.AndWritesTheBitwiseConjunction := by
  refine ⟨?word, ?running⟩
  case word =>
    intro a b c
    exact decode_assemble ⟨0x8#4, a, b, c⟩
  case running =>
    intro a b c s h
    obtain ⟨t, hexec, hframe, hacc⟩ := exec_writes_acc_of_running (.and a b c) h rfl
    exact ⟨t, hexec, hframe, hacc ▸ aluAnd_getLsbD (s.reg a) (s.reg b)⟩

/-- Settles O41: the operation of OR is an accumulator write of the disjunction. -/
theorem orWritesTheBitwiseDisjunction : Obligations.OrWritesTheBitwiseDisjunction := by
  refine ⟨?word, ?running⟩
  case word =>
    intro a b c
    exact decode_assemble ⟨0x9#4, a, b, c⟩
  case running =>
    intro a b c s h
    obtain ⟨t, hexec, hframe, hacc⟩ := exec_writes_acc_of_running (.or a b c) h rfl
    exact ⟨t, hexec, hframe, hacc ▸ aluOr_getLsbD (s.reg a) (s.reg b)⟩

/-- Settles O42: the operation of NOT is an accumulator write of the complement, which is both the
difference from 65535 and the inversion of each bit. -/
theorem notWritesTheComplement : Obligations.NotWritesTheComplement := by
  refine ⟨?word, ?running⟩
  case word =>
    intro a b c
    exact decode_assemble ⟨0xA#4, a, b, c⟩
  case running =>
    intro a b c s h
    obtain ⟨t, hexec, hframe, hacc⟩ := exec_writes_acc_of_running (.not a b c) h rfl
    exact ⟨t, hexec, hframe, hacc ▸ aluNot_toNat (s.reg a),
      hacc ▸ fun _ hi => aluNot_getLsbD (s.reg a) hi⟩

/-- Settles O43: the operation of XOR is an accumulator write of the exclusive disjunction. -/
theorem xorWritesTheBitwiseDifference : Obligations.XorWritesTheBitwiseDifference := by
  refine ⟨?word, ?running⟩
  case word =>
    intro a b c
    exact decode_assemble ⟨0xB#4, a, b, c⟩
  case running =>
    intro a b c s h
    obtain ⟨t, hexec, hframe, hacc⟩ := exec_writes_acc_of_running (.xor a b c) h rfl
    exact ⟨t, hexec, hframe, hacc ▸ aluXor_getLsbD (s.reg a) (s.reg b)⟩

end Sys2Proof.Proofs

/-! Decoder and encoder (spec/30_encoding.md): the opcode map read in both directions (R53), so that
a word and its instruction determine each other. -/

namespace Sys2Proof

/-! ### Decode and encode, one the inverse of the other -/

/-- An instruction has a word exactly when it is well-formed (spec R53, R54). -/
theorem encode_isSome (i : Instr) : (encode i).isSome = i.wf := by
  cases i <;> rfl

/-- The word of an instruction decodes to it: its `op` selects the constructor, row by row. -/
theorem decode_of_encode {i : Instr} {w : Word} (h : encode i = some w) : decode w = i := by
  cases i
  case dumpAccum | pushAccum => cases h
  all_goals
    cases h
    exact decode_assemble _

/-- Every `op` selects an instruction of that row: sixteen values, sixteen rows. -/
theorem encode_select (op a b c : Nibble) :
    encode (select (opselOf op) a b c) = some (assemble ⟨op, a, b, c⟩) := by
  obtain ⟨n, hn⟩ := op
  interval_cases n <;> rfl

@[simp] theorem encode_decode (w : Word) : encode (decode w) = some w := by
  rw [decode, encode_select]
  exact congrArg some (assemble_fields w)

/-- Decoding is the converse of encoding. -/
theorem decode_eq_iff (w : Word) (i : Instr) : decode w = i ↔ encode i = some w :=
  ⟨fun h => h ▸ encode_decode w, decode_of_encode⟩

@[simp] theorem decode_wf (w : Word) : (decode w).wf = true := by
  rw [← encode_isSome, encode_decode, Option.isSome_some]

/-! ### The match and mask of the opcode map (spec R53) -/

/-- A word is assembled from four fields exactly when they are its fields. -/
theorem eq_assemble_iff (w : Word) (f : Fields) : w = assemble f ↔ fields w = f :=
  ⟨fun h => h ▸ fields_assemble f, fun h => h ▸ (assemble_fields w).symm⟩

/-- The mask 0xF000 leaves the `op` field and clears the other three. -/
theorem fields_and_mask (w : Word) : fields (w &&& 0xF000#16) = ⟨(fields w).op, 0#4, 0#4, 0#4⟩ := by
  simp only [fields, BitVec.extractLsb'_and]
  rw [show (0xF000#16).extractLsb' 12 4 = BitVec.allOnes 4 by decide,
    show (0xF000#16).extractLsb' 8 4 = 0#4 by decide,
    show (0xF000#16).extractLsb' 4 4 = 0#4 by decide,
    show (0xF000#16).extractLsb' 0 4 = 0#4 by decide]
  simp only [BitVec.and_allOnes, BitVec.and_zero]

/-- The match value of a row is the word of its `op` and three zero nibbles. -/
theorem shiftLeft_op_eq_assemble (op : Nibble) :
    op.setWidth 16 <<< 12 = assemble ⟨op, 0#4, 0#4, 0#4⟩ := by
  simp [assemble]

theorem and_mask_eq_iff (w : Word) (op : Nibble) :
    (w &&& 0xF000#16) = op.setWidth 16 <<< 12 ↔ (fields w).op = op := by
  rw [shiftLeft_op_eq_assemble, eq_assemble_iff, fields_and_mask, Fields.mk.injEq]
  simp only [and_true]

/-- A word with the operand nibbles `a`, `b`, `c` matches a row exactly when it decodes to it. -/
theorem match_iff_decode {w : Word} {a b c : Nibble} {i : Instr} (ha : (fields w).a = a)
    (hb : (fields w).b = b) (hc : (fields w).c = c) (op : Nibble)
    (hi : encode i = some (assemble ⟨op, a, b, c⟩)) :
    (w &&& 0xF000#16) = op.setWidth 16 <<< 12 ↔ decode w = i := by
  rw [and_mask_eq_iff, decode_eq_iff, hi, Option.some_inj, eq_comm (b := w), eq_assemble_iff,
    ← ha, ← hb, ← hc]
  exact ⟨fun h => h ▸ rfl, fun h => congrArg Fields.op h⟩

end Sys2Proof

namespace Sys2Proof.Proofs

open Sys2Proof Sys2Proof.Machine

/-- Settles O5: a well-formed instruction has a word, and its word decodes to it. -/
theorem decodeOfEncodeIsTheInstruction : Obligations.DecodeOfEncodeIsTheInstruction := by
  intro i hi
  obtain ⟨w, hw⟩ := Option.isSome_iff_exists.mp ((encode_isSome i).trans hi)
  exact ⟨w, hw, decode_of_encode hw⟩

/-- Settles O6: the instruction of a word keeps all four fields of it. -/
theorem encodeOfDecodeIsTheWord : Obligations.EncodeOfDecodeIsTheWord :=
  fun w => ⟨decode_wf w, encode_decode w⟩

/-- Settles O3: each row by its `op`, and the selects no word drives by evaluating the map. -/
theorem matchAndMaskSelectTheInstruction : Obligations.MatchAndMaskSelectTheInstruction := by
  refine ⟨?rows, ?selects⟩
  case rows =>
    intro w a b c ha hb hc
    have row := fun {i : Instr} => match_iff_decode (i := i) ha hb hc
    exact ⟨row 0x0#4 rfl, row 0x1#4 rfl, row 0x2#4 rfl, row 0x3#4 rfl, row 0x4#4 rfl,
      row 0x5#4 rfl, row 0x6#4 rfl, row 0x7#4 rfl, row 0x8#4 rfl, row 0x9#4 rfl, row 0xA#4 rfl,
      row 0xB#4 rfl, row 0xC#4 rfl, row 0xD#4 rfl, row 0xE#4 rfl, row 0xF#4 rfl⟩
  case selects =>
    intro sel a b c
    exact ⟨by rintro rfl; rfl, by rintro rfl; rfl, fun h => select_unassigned h a b c⟩

/-- Settles O4: a decoded instruction has a word, and the two accumulator stores have none. -/
theorem noWordSelectsTheAccumulatorStores : Obligations.NoWordSelectsTheAccumulatorStores := by
  intro w a b c
  constructor
  · intro h
    cases (decode_eq_iff w _).mp h
  · intro h
    cases (decode_eq_iff w _).mp h

/-- Settles O9: the nine words are those of the listed instructions. -/
theorem wordsOfTheSpecDecodeAsListed : Obligations.WordsOfTheSpecDecodeAsListed :=
  ⟨decode_of_encode rfl, decode_of_encode rfl, decode_of_encode rfl, decode_of_encode rfl,
    decode_of_encode rfl, decode_of_encode rfl, decode_of_encode rfl, decode_of_encode rfl,
    decode_of_encode rfl⟩

end Sys2Proof.Proofs

/-! What an instruction can do (spec R58, line 5; R101): the state changes of the operations that
succeed and the exceptions of those that do not, each said once, and with them everything `exec` can
answer. -/

namespace Sys2Proof.Machine

/-! ### The effects and the exceptions of the operations -/

/-- The ten instructions whose result goes to `acc` (spec R14). -/
def WritesAcc (i : Instr) : Prop :=
  ∃ a b c : Nibble,
    i = .add a b c ∨ i = .sub a b c ∨ i = .mult a b c ∨ i = .div a b c ∨ i = .and a b c ∨
    i = .or a b c ∨ i = .not a b c ∨ i = .xor a b c ∨ i = .lshift a b c ∨ i = .rshift a b c

/-- The two instructions that store at an address their fields name (spec R29). -/
def Dumps (i : Instr) : Prop := ∃ a b c : Nibble, i = .dump a b c ∨ i = .dumpAccum a b c

/-- The two instructions that push (spec R86). -/
def Pushes (i : Instr) : Prop := ∃ a b c : Nibble, i = .push a b c ∨ i = .pushAccum a b c

/-- The state a push of `v` with room for it leaves (spec R87). -/
def pushed (v : Word) (s : State) : State :=
  { s.memWrite2 (pushAddress s) v with sp := s.sp - 2#16 }

/-- The state a pop into `x[d]` from inside memory leaves (spec R88). -/
def popped (d : Nibble) (s : State) : State :=
  { s.setReg d (popValue s) with sp := s.sp + 2#16 }

/-- `Effect s i u`: the operation of `i` in `s` can succeed with `u`, by what it writes. -/
inductive Effect (s : State) : Instr → State → Prop where
  | halts (a b c : Nibble) : Effect s (.halt a b c) { s with halted := true }
  | nothing (a b c : Nibble) : Effect s (.nop2 a b c) s
  | immediate (a b c : Nibble) : Effect s (.loadImmediate a b c) (s.setReg a (immediate b c))
  | accumulates {i : Instr} (v : Word) (hi : WritesAcc i) : Effect s i (s.setAcc v)
  | dumps {i : Instr} {m : Nat} (v : Word) (hi : Dumps i) (haddr : storeAddress i s = some m)
      (hm : m + 1 ≤ 65535) : Effect s i (s.memWrite2 m v)
  | pushes {i : Instr} (v : Word) (hi : Pushes i) (hsp : 2 ≤ s.sp.toNat) : Effect s i (pushed v s)
  | pops (a b c : Nibble) (hsp : s.sp.toNat ≤ 65533) : Effect s (.pop a b c) (popped a s)

/-- `Raises s i e`: the operation of `i` in `s` raises `e` (spec R102, R103). -/
inductive Raises (s : State) : Instr → Exception → Prop where
  | division (a b c : Nibble) (hb : s.reg b = 0#16) : Raises s (.div a b c) .divisionByZero
  | push {i : Instr} (hi : Pushes i) (hsp : s.sp.toNat < 2) : Raises s i .outOfRange
  | pop (a b c : Nibble) (hsp : 65533 < s.sp.toNat) : Raises s (.pop a b c) .outOfRange

/-- What an operation can answer: an effect or an exception of its instruction. -/
def Answers (s : State) (i : Instr) : Except Exception State → Prop
  | .ok u => Effect s i u
  | .error e => Raises s i e

theorem answers_dump {s : State} {i : Instr} {b c : Nibble} (v : Word) (hi : Dumps i)
    (haddr : storeAddress i s = some (memAddress b c)) :
    Answers s i (storeWord (memAddress b c) v s) := by
  rw [storeWord_memAddress]
  exact .dumps v hi haddr (Nat.succ_le_succ ((memAddress_le b c).trans (by decide)))

theorem answers_push {s : State} {i : Instr} (v : Word) (hi : Pushes i) :
    Answers s i (pushWord v s) := by
  obtain ⟨hsp, h⟩ | ⟨hsp, h⟩ := pushWord_cases v s
  · rw [h]
    exact .pushes v hi hsp
  · rw [h]
    exact .push hi hsp

theorem answers_pop (a b c : Nibble) (s : State) : Answers s (.pop a b c) (popWord a s) := by
  obtain ⟨hsp, h⟩ | ⟨hsp, h⟩ := popWord_cases a s
  · rw [h]
    exact .pops a b c hsp
  · rw [h]
    exact .pop a b c hsp

theorem operationOf_div (a b c : Nibble) {s : State} (hb : s.reg b ≠ 0#16) :
    operationOf (.div a b c) s = .ok (s.setAcc (aluDiv (s.reg a) (s.reg b))) :=
  if_neg hb

theorem operationOf_div_zero (a b c : Nibble) {s : State} (hb : s.reg b = 0#16) :
    operationOf (.div a b c) s = .error .divisionByZero :=
  if_pos hb

theorem answers_div (a b c : Nibble) (s : State) :
    Answers s (.div a b c) (operationOf (.div a b c) s) := by
  by_cases hb : s.reg b = 0#16
  · rw [operationOf_div_zero a b c hb]
    exact .division a b c hb
  · rw [operationOf_div a b c hb]
    exact .accumulates _ ⟨a, b, c, by simp⟩

/-- Everything the operation of an instruction can do. -/
theorem operationOf_answers (i : Instr) (s : State) : Answers s i (operationOf i s) := by
  cases i with
  | halt a b c => exact .halts a b c
  | loadImmediate a b c => exact .immediate a b c
  | nop2 a b c => exact .nothing a b c
  | dump a b c => exact answers_dump _ ⟨a, b, c, .inl rfl⟩ rfl
  | dumpAccum a b c => exact answers_dump _ ⟨a, b, c, .inr rfl⟩ rfl
  | div a b c => exact answers_div a b c s
  | push a b c => exact answers_push _ ⟨a, b, c, .inl rfl⟩
  | pushAccum a b c => exact answers_push _ ⟨a, b, c, .inr rfl⟩
  | pop a b c => exact answers_pop a b c s
  | add a b c | sub a b c | mult a b c | and a b c | or a b c | not a b c | xor a b c | lshift a b c
  | rshift a b c => exact .accumulates _ ⟨a, b, c, by simp⟩

/-- An exception its instruction can raise is the one it raises. -/
theorem operationOf_of_raises {s : State} {i : Instr} {e : Exception} (h : Raises s i e) :
    operationOf i s = .error e := by
  cases h with
  | division a b c hb => exact operationOf_div_zero a b c hb
  | push hi hsp =>
    obtain ⟨a, b, c, rfl | rfl⟩ := hi
    · exact if_pos hsp
    · exact if_pos hsp
  | pop a b c hsp => exact if_pos hsp

/-! ### Everything `exec` can answer -/

/-- While halted the advance alone; while running an effect and the advance, or an exception. -/
theorem exec_cases (i : Instr) (s : State) :
    (s.halted = true ∧ exec i s = .next (complete s)) ∨
      (s.halted = false ∧ ∃ u, Effect s i u ∧ exec i s = .next (complete u)) ∨
      (s.halted = false ∧ ∃ e, Raises s i e ∧ exec i s = .next (takeException e s)) := by
  have hans := operationOf_answers i s
  rw [exec_eq_runOperation]
  obtain h | ⟨hrun, u, ho, h⟩ | ⟨hrun, e, ho, h⟩ := runOperation_cases (operationOf i) s
  · exact .inl h
  · rw [ho] at hans
    exact .inr (.inl ⟨hrun, u, hans, h⟩)
  · rw [ho] at hans
    exact .inr (.inr ⟨hrun, e, hans, h⟩)

/-- The same of a given next state. -/
theorem exec_next_cases {i : Instr} {s t : State} (h : exec i s = .next t) :
    (s.halted = true ∧ t = complete s) ∨
      (s.halted = false ∧ ∃ u, Effect s i u ∧ t = complete u) ∨
      (s.halted = false ∧ ∃ e, Raises s i e ∧ t = takeException e s) := by
  have hcases := exec_cases i s
  simp only [h, Host.Outcome.next.injEq] at hcases
  exact hcases

theorem exec_of_raises {i : Instr} {s : State} {e : Exception} (hrun : s.halted = false)
    (h : Raises s i e) : exec i s = .next (takeException e s) := by
  rw [exec_eq_runOperation, runOperation_error hrun (operationOf_of_raises h)]

theorem exception_status_ne_ok (e : Exception) : some e.status ≠ some Status.ok := by
  cases e <;> decide

theorem exception_status_injective : Function.Injective Exception.status := by
  intro e e'
  cases e <;> cases e' <;> simp [Exception.status]

/-- A status other than Ok is that of an exception raised while running, and nothing else changed.
-/
theorem raises_of_status_ne_ok {i : Instr} {s t : State} (h : exec i s = .next t)
    (hst : t.status ≠ some .ok) :
    s.halted = false ∧ ∃ e, Raises s i e ∧ t = takeException e s := by
  obtain ⟨-, rfl⟩ | ⟨-, u, -, rfl⟩ | hraise := exec_next_cases h
  · exact absurd rfl hst
  · exact absurd rfl hst
  · exact hraise

/-- A status that is an exception's was left by that exception. -/
theorem raises_of_status {i : Instr} {s t : State} {e : Exception} (h : exec i s = .next t)
    (hst : t.status = some e.status) : s.halted = false ∧ Raises s i e := by
  obtain ⟨hrun, e', hraise, rfl⟩ :=
    raises_of_status_ne_ok h (hst ▸ exception_status_ne_ok e)
  have he : e' = e := exception_status_injective (Option.some.inj hst)
  exact ⟨hrun, he ▸ hraise⟩

theorem onlyFaulted_takeException (e : Exception) (s : State) :
    OnlyFaulted e s (takeException e s) :=
  ⟨rfl, fun _ => rfl, rfl, rfl, rfl, rfl, fun _ => rfl, rfl⟩

/-! ### The frame of an effect -/

/-- A register that differs after an effect is the destination of LOAD_IMMEDIATE or POP. -/
theorem Effect.writes_reg {s u : State} {i : Instr} {r : Nibble} (h : Effect s i u)
    (hr : u.reg r ≠ s.reg r) :
    (∃ b c : Nibble, i = .loadImmediate r b c) ∨ ∃ b c : Nibble, i = .pop r b c := by
  have dest {a : Nibble} {v : Word} (hne : (s.setReg a v).reg r ≠ s.reg r) : r = a :=
    Decidable.byContradiction fun hra => hne (s.reg_setReg_other hra v)
  cases h with
  | immediate a b c =>
    obtain rfl := dest hr
    exact .inl ⟨b, c, rfl⟩
  | pops a b c hsp =>
    obtain rfl := dest hr
    exact .inr ⟨b, c, rfl⟩
  | halts | nothing | accumulates | dumps | pushes => exact absurd rfl hr

theorem Effect.writes_acc {s u : State} {i : Instr} (h : Effect s i u) (hacc : u.acc ≠ s.acc) :
    WritesAcc i := by
  cases h with
  | accumulates v hi => exact hi
  | halts | nothing | immediate | dumps | pushes | pops => exact absurd rfl hacc

/-- A push lowers `sp` without wrapping. -/
theorem sp_sub_two_toNat {sp : Word} (h : 2 ≤ sp.toNat) : (sp - 2#16).toNat + 2 = sp.toNat := by
  have hle : 2#16 ≤ sp := BitVec.le_def.mpr h
  rw [BitVec.toNat_sub_of_le hle]
  exact Nat.sub_add_cancel h

/-- A pop raises `sp` without wrapping. -/
theorem sp_add_two_toNat {sp : Word} (h : sp.toNat ≤ 65533) : (sp + 2#16).toNat = sp.toNat + 2 :=
  BitVec.toNat_add_of_lt (Nat.lt_of_le_of_lt (Nat.add_le_add_right h 2) (by decide))

theorem Effect.moves_sp {s u : State} {i : Instr} (h : Effect s i u) (hsp : u.sp ≠ s.sp) :
    (Pushes i ∧ u.sp.toNat + 2 = s.sp.toNat) ∨
      ((∃ a b c : Nibble, i = .pop a b c) ∧ u.sp.toNat = s.sp.toNat + 2) := by
  cases h with
  | pushes v hi hle => exact .inl ⟨hi, sp_sub_two_toNat hle⟩
  | pops a b c hle => exact .inr ⟨⟨a, b, c, rfl⟩, sp_add_two_toNat hle⟩
  | halts | nothing | immediate | accumulates | dumps => exact absurd rfl hsp

theorem Effect.ip {s u : State} {i : Instr} (h : Effect s i u) : u.ip = s.ip := by
  cases h <;> rfl

theorem Effect.inputs {s u : State} {i : Instr} (h : Effect s i u) : u.inputs = s.inputs := by
  cases h <;> rfl

/-- From a running state the effect of HALT halts, and no other. -/
theorem Effect.halted_iff {s u : State} {i : Instr} (h : Effect s i u) (hrun : s.halted = false) :
    u.halted = true ↔ ∃ a b c : Nibble, i = .halt a b c := by
  constructor
  · intro hu
    cases h with
    | halts a b c => exact ⟨a, b, c, rfl⟩
    | nothing | immediate | accumulates | dumps | pushes | pops =>
      exact absurd (hrun.symm.trans hu) Bool.false_ne_true
  · rintro ⟨a, b, c, rfl⟩
    cases h with
    | halts => rfl
    | accumulates v hi => simp [WritesAcc] at hi
    | dumps v hi => simp [Dumps] at hi
    | pushes v hi => simp [Pushes] at hi

/-- An effect leaves every byte alone but the two at the instruction's store address. -/
theorem Effect.read_other {s u : State} {i : Instr} (h : Effect s i u) {n : Nat}
    (hn : ∀ m : Nat, storeAddress i s = some m → n ≠ m ∧ n ≠ m + 1) :
    u.mem.read n = s.mem.read n := by
  cases h with
  | dumps v hi haddr hm =>
    obtain ⟨hlo, hhi⟩ := hn _ haddr
    exact s.memWrite2_read_other v hlo hhi
  | pushes v hi hsp =>
    have haddr : storeAddress i s = some (pushAddress s) := by
      obtain ⟨a, b, c, rfl | rfl⟩ := hi <;> rfl
    obtain ⟨hlo, hhi⟩ := hn _ haddr
    exact s.memWrite2_read_other v hlo hhi
  | halts | nothing | immediate | accumulates | pops => rfl

/-- The two bytes of a push are inside memory. -/
theorem pushAddress_add_one {s : State} (h : 2 ≤ s.sp.toNat) : pushAddress s + 1 = s.sp.toNat :=
  Nat.sub_add_cancel (Nat.le_of_succ_le h)

theorem Effect.wf {s u : State} {i : Instr} (h : Effect s i u) (hwf : Memory.wf s.mem = true) :
    Memory.wf u.mem = true := by
  cases h with
  | dumps v hi haddr hm => exact State.memWrite2_wf v hm hwf
  | pushes v hi hsp =>
    refine State.memWrite2_wf v ?_ hwf
    rw [pushAddress_add_one hsp]
    exact Nat.le_of_lt_succ s.sp.isLt
  | halts | nothing | immediate | accumulates | pops => exact hwf

end Sys2Proof.Machine

/-! ### The obligations on what instructions write and raise -/

namespace Sys2Proof.Proofs

open Sys2Proof Sys2Proof.Machine

/-- Settles O25: among the effects only those of LOAD_IMMEDIATE and POP write a register; the
advance and an exception write none. -/
theorem onlyLoadImmediateAndPopWriteRegisters :
    Obligations.OnlyLoadImmediateAndPopWriteRegisters := by
  intro i s t r h hr
  obtain ⟨-, rfl⟩ | ⟨-, u, heff, rfl⟩ | ⟨-, e, -, rfl⟩ := exec_next_cases h
  · exact absurd rfl hr
  · exact heff.writes_reg hr
  · exact absurd rfl hr

/-- Settles O26: among the effects only the accumulator write reaches `acc`. -/
theorem onlyAluInstructionsWriteTheAccumulator :
    Obligations.OnlyAluInstructionsWriteTheAccumulator := by
  intro i s t h hacc
  obtain ⟨-, rfl⟩ | ⟨-, u, heff, rfl⟩ | ⟨-, e, -, rfl⟩ := exec_next_cases h
  · exact absurd rfl hacc
  · exact heff.writes_acc hacc
  · exact absurd rfl hacc

/-- Settles O27: among the effects only a push and a pop move `sp`, and an effect ends with Ok. -/
theorem onlyStackInstructionsMoveTheStackPointer :
    Obligations.OnlyStackInstructionsMoveTheStackPointer := by
  intro i s t h hsp
  obtain ⟨-, rfl⟩ | ⟨-, u, heff, rfl⟩ | ⟨-, e, -, rfl⟩ := exec_next_cases h
  · exact absurd rfl hsp
  · exact ⟨rfl, heff.moves_sp hsp⟩
  · exact absurd rfl hsp

/-- Settles O39: a zero divisor raises the exception, and no other operation raises it. -/
theorem divisionByZeroIsRaisedExactlyByDivByZero :
    Obligations.DivisionByZeroIsRaisedExactlyByDivByZero := by
  intro i s
  refine ⟨?raised, ?only⟩
  case raised =>
    rintro ⟨⟨a, b, c, rfl, hb⟩, hrun⟩
    exact ⟨_, exec_of_raises hrun (.division a b c hb), onlyFaulted_takeException _ s⟩
  case only =>
    intro t h hst
    obtain ⟨hrun, hraise⟩ := raises_of_status (e := .divisionByZero) h hst
    cases hraise with
    | division a b c hb => exact ⟨hrun, a, b, c, rfl, hb⟩

/-- Settles O49: a push and a pop raise the exception at their own end of the stack, and no other
operation raises it. -/
theorem outOfRangeIsRaisedExactlyAtTheEndsOfTheStack :
    Obligations.OutOfRangeIsRaisedExactlyAtTheEndsOfTheStack := by
  intro i s
  refine ⟨?push, ?pop, ?only⟩
  case push =>
    rintro ⟨hi, hsp, hrun⟩
    exact ⟨_, exec_of_raises hrun (.push hi hsp), onlyFaulted_takeException _ s⟩
  case pop =>
    rintro ⟨⟨a, b, c, rfl⟩, hsp, hrun⟩
    exact ⟨_, exec_of_raises hrun (.pop a b c hsp), onlyFaulted_takeException _ s⟩
  case only =>
    intro t h hst
    obtain ⟨hrun, hraise⟩ := raises_of_status (e := .outOfRange) h hst
    cases hraise with
    | push hi hsp => exact ⟨hrun, .inl ⟨hi, hsp⟩⟩
    | pop a b c hsp => exact ⟨hrun, .inr ⟨⟨a, b, c, rfl⟩, hsp⟩⟩

/-- Settles O19: while halted an instruction is the advance alone. -/
theorem haltedInstructionOnlyAdvances : Obligations.HaltedInstructionOnlyAdvances :=
  fun i _ h => exec_of_halted i h

/-- Settles O8: no operation reads a field its instruction ignores. -/
theorem ignoredFieldsChangeNothing : Obligations.IgnoredFieldsChangeNothing := by
  intro a b c a' b' c' s
  exact ⟨rfl, rfl, rfl, rfl, rfl, rfl, rfl, rfl, rfl, rfl, rfl, rfl, rfl, rfl, rfl, rfl⟩

end Sys2Proof.Proofs

/-! The step (spec/40_step_and_control.md, section 1): its slot write, and everything the step of a
delivered word can do (R58 to R63), with what every step keeps (R17, R20). -/

namespace Sys2Proof.Machine

/-! ### The slot write -/

/-- The state after lines 1 and 2 of the step: the word taken, and written to its slot (spec R59).
-/
def slotWritten (w : Word) (rest : List Input) (s : State) : State :=
  ({ s with inputs := rest } : State).memWrite2 s.ip.toNat w

theorem holdsWord_slotWritten (w : Word) (rest : List Input) (s : State) :
    HoldsWord s.ip.toNat w (slotWritten w rest s) :=
  holdsWord_memWrite2 s.ip.toNat w _

theorem sameMemoryOutside_slotWritten (w : Word) (rest : List Input) (s : State) :
    SameMemoryOutside s.ip.toNat s (slotWritten w rest s) :=
  sameMemoryOutside_memWrite2 s.ip.toNat w { s with inputs := rest }

theorem slotWritten_wf (w : Word) (rest : List Input) {s : State} (hip : s.ip.toNat ≤ 65534)
    (h : Memory.wf s.mem = true) : Memory.wf (slotWritten w rest s).mem = true :=
  State.memWrite2_wf (s := { s with inputs := rest }) w (Nat.succ_le_succ hip) h

/-- Where an instruction stores does not depend on the slot write before it. -/
theorem storeAddress_slotWritten (i : Instr) (w : Word) (rest : List Input) (s : State) :
    storeAddress i (slotWritten w rest s) = storeAddress i s := by
  cases i <;> rfl

/-- Storing a word where it already stands changes nothing. -/
theorem memWrite2_of_holdsWord {s : State} {n : Nat} {v : Word} (hwf : Memory.wf s.mem = true)
    (hn : n + 1 ≤ 65535) (h : HoldsWord n v s) : s.memWrite2 n v = s := by
  obtain ⟨hhi, hlo⟩ := h
  have hread : ∀ k, (s.memWrite2 n v).mem.read k = s.mem.read k := by
    intro k
    by_cases hk : k = n
    · rw [hk, State.memWrite2_read_hi, hhi]
    · by_cases hk' : k = n + 1
      · rw [hk', State.memWrite2_read_lo, hlo]
      · exact s.memWrite2_read_other v hk hk'
  have hmem : (s.memWrite2 n v).mem = s.mem :=
    Memory.eq_of_read (State.memWrite2_wf v hn hwf) hwf hread
  exact congrArg (fun m => { s with mem := m }) hmem

/-! ### Everything a step can do -/

theorem step_idle {s : State} (h : s.inputs = []) : step s = .next s := by
  rw [step, fetch_idle h]

theorem step_reset {s : State} {rest : List Input} (h : s.inputs = .reset :: rest) :
    step s = .next (acceptReset rest) := by
  rw [step, fetch_reset h]

theorem step_word_outside {s : State} {w : Word} {rest : List Input}
    (h : s.inputs = .word w :: rest) (hip : 65534 < s.ip.toNat) :
    step s = .next (takeException .outOfRange { s with inputs := rest }) := by
  rw [step, fetch_word_outside h hip]

/-- `WordStep s w rest t`: the ways the step from `s` on the word `w` can end in `t`, in the order
of its checks (spec R107). -/
inductive WordStep (s : State) (w : Word) (rest : List Input) : State → Prop where
  | rejected (hip : 65534 < s.ip.toNat) :
      WordStep s w rest (takeException .outOfRange { s with inputs := rest })
  | halted (hip : s.ip.toNat ≤ 65534) (hhalt : s.halted = true) :
      WordStep s w rest (complete (slotWritten w rest s))
  | completed {u : State} (hip : s.ip.toNat ≤ 65534) (hrun : s.halted = false)
      (heff : Effect (slotWritten w rest s) (decode w) u) : WordStep s w rest (complete u)
  | faulted {e : Exception} (hip : s.ip.toNat ≤ 65534) (hrun : s.halted = false)
      (hraise : Raises (slotWritten w rest s) (decode w) e) :
      WordStep s w rest (takeException e (slotWritten w rest s))

theorem step_word {s : State} {w : Word} {rest : List Input} (h : s.inputs = .word w :: rest) :
    ∃ t : State, step s = .next t ∧ WordStep s w rest t := by
  rcases Nat.lt_or_ge 65534 s.ip.toNat with hip | hip
  · exact ⟨_, step_word_outside h hip, .rejected hip⟩
  · have hstep : step s = exec (decode w) (slotWritten w rest s) := step_word_inside h hip
    rw [hstep]
    obtain ⟨hhalt, he⟩ | ⟨hrun, u, heff, he⟩ | ⟨hrun, e, hraise, he⟩ :=
      exec_cases (decode w) (slotWritten w rest s)
    · exact ⟨_, he, .halted hip hhalt⟩
    · exact ⟨_, he, .completed hip hrun heff⟩
    · exact ⟨_, he, .faulted hip hrun hraise⟩

/-- The same of a given next state. -/
theorem wordStep_of_step {s t : State} {w : Word} {rest : List Input}
    (h : s.inputs = .word w :: rest) (hs : step s = .next t) : WordStep s w rest t := by
  obtain ⟨t', hs', hw⟩ := step_word h
  cases hs.symm.trans hs'
  exact hw

/-- The queue before the step plays no part in what the step of a word does. -/
theorem WordStep.of_inputs {s t : State} {w : Word} {rest inputs : List Input}
    (h : WordStep { s with inputs := inputs } w rest t) : WordStep s w rest t := by
  cases h with
  | rejected hip => exact .rejected hip
  | halted hip hhalt => exact .halted hip hhalt
  | completed hip hrun heff => exact .completed hip hrun heff
  | faulted hip hrun hraise => exact .faulted hip hrun hraise

theorem submit_wordStep (w : Word) (s : State) :
    ∃ t : State, submit w s = .next t ∧ WordStep s w [] t := by
  obtain ⟨t, hs, hw⟩ := step_word (s := { s with inputs := [.word w] }) rfl
  exact ⟨t, hs, hw.of_inputs⟩

/-! ### What the step of a word leaves -/

section WordStep

variable {s t : State} {w : Word} {rest : List Input}

theorem WordStep.inputs (h : WordStep s w rest t) : t.inputs = rest := by
  cases h with
  | completed _ _ heff => exact heff.inputs
  | rejected | halted | faulted => rfl

theorem WordStep.status (h : WordStep s w rest t) : ∃ st : Status, t.status = some st := by
  cases h with
  | rejected | halted | completed | faulted => exact ⟨_, rfl⟩

/-- Ok moves `ip` up by 2, which does not wrap; every other status leaves it (spec R63). -/
theorem WordStep.ip (h : WordStep s w rest t) :
    (t.status = some .ok ∧ s.ip.toNat ≤ 65534 ∧ t.ip.toNat = s.ip.toNat + 2) ∨
      (t.status ≠ some .ok ∧ t.ip = s.ip) := by
  cases h with
  | rejected hip => exact .inr ⟨exception_status_ne_ok _, rfl⟩
  | halted hip hhalt => exact .inl ⟨rfl, hip, complete_ip_toNat hip⟩
  | @completed u hip hrun heff =>
    have hu : u.ip = s.ip := heff.ip
    exact .inl ⟨rfl, hip, hu ▸ complete_ip_toNat (hu ▸ hip)⟩
  | faulted hip hrun hraise => exact .inr ⟨exception_status_ne_ok _, rfl⟩

theorem WordStep.read_other (h : WordStep s w rest t) {n : Nat} (hn : n ≠ s.ip.toNat)
    (hn' : n ≠ s.ip.toNat + 1)
    (hstore : ∀ m : Nat, storeAddress (decode w) s = some m → n ≠ m ∧ n ≠ m + 1) :
    t.mem.read n = s.mem.read n := by
  have hslot : (slotWritten w rest s).mem.read n = s.mem.read n :=
    sameMemoryOutside_slotWritten w rest s n hn hn'
  cases h with
  | rejected hip => rfl
  | halted hip hhalt => exact hslot
  | completed hip hrun heff =>
    rw [← storeAddress_slotWritten _ w rest] at hstore
    exact (heff.read_other hstore).trans hslot
  | faulted hip hrun hraise => exact hslot

theorem WordStep.halted_of_halted (h : WordStep s w rest t) (hhalt : s.halted = true) :
    t.halted = true := by
  cases h with
  | rejected | halted => exact hhalt
  | completed _ hrun | faulted _ hrun => exact absurd (hrun.symm.trans hhalt) Bool.false_ne_true

theorem WordStep.halted_of_status_ne_ok (h : WordStep s w rest t) (hst : t.status ≠ some .ok) :
    t.halted = s.halted := by
  cases h with
  | rejected | faulted => rfl
  | halted | completed => exact absurd rfl hst

/-- A running core is halted by HALT ending with Ok, and by nothing else (spec R66). -/
theorem WordStep.halted_iff (h : WordStep s w rest t) (hrun : s.halted = false) :
    t.halted = true ↔ t.status = some .ok ∧ ∃ a b c : Nibble, decode w = .halt a b c := by
  by_cases hst : t.status = some .ok
  · rw [and_iff_right hst]
    cases h with
    | completed _ _ heff => exact heff.halted_iff hrun
    | halted _ hhalt => exact absurd (hrun.symm.trans hhalt) Bool.false_ne_true
    | rejected | faulted => exact absurd hst (exception_status_ne_ok _)
  · rw [h.halted_of_status_ne_ok hst, hrun]
    exact ⟨fun h => absurd h Bool.false_ne_true, fun h => absurd h.1 hst⟩

end WordStep

/-- Whether an instruction raises depends on the registers and `sp` alone. -/
theorem Raises.congr {s s' : State} {i : Instr} {e : Exception} (h : Raises s i e)
    (hregs : s'.regs = s.regs) (hsp : s'.sp = s.sp) : Raises s' i e := by
  cases h with
  | division a b c hb => exact .division a b c ((State.reg_congr hregs b).trans hb)
  | push hi hlt => exact .push hi (hsp ▸ hlt)
  | pop a b c hlt => exact .pop a b c (hsp ▸ hlt)

/-! ### The invariant -/

/-- An even `ip` inside memory leaves room for a whole slot, and stays even after the advance. -/
theorem complete_ip_inv {s : State} (heven : s.ip.toNat % 2 = 0) (hip : s.ip.toNat ≤ 65534) :
    (complete s).ip.toNat % 2 = 0 ∧ (complete s).ip.toNat ≤ 65536 := by
  rw [complete_ip_toNat hip, Nat.add_mod_right]
  exact ⟨heven, Nat.add_le_add_right hip 2⟩

/-- A push and a pop move `sp` by 2, so it stays odd. -/
theorem Effect.sp_odd {s u : State} {i : Instr} (h : Effect s i u) (hodd : s.sp.toNat % 2 = 1) :
    u.sp.toNat % 2 = 1 := by
  by_cases hsp : u.sp = s.sp
  · rw [hsp, hodd]
  · obtain ⟨-, hdown⟩ | ⟨-, hup⟩ := h.moves_sp hsp
    · omega
    · omega

theorem State.reset_inv : State.reset.Inv := by decide

theorem reg_reset (r : Nibble) : State.reset.reg r = 0x0000#16 :=
  Vector.getElem_replicate r.isLt

theorem WordStep.inv {s t : State} {w : Word} {rest : List Input} (h : WordStep s w rest t)
    (hs : s.Inv) : t.Inv := by
  obtain ⟨hwf, heven, hle, hodd⟩ := hs
  cases h with
  | rejected hip => exact ⟨hwf, heven, hle, hodd⟩
  | halted hip hhalt =>
    obtain ⟨heven', hle'⟩ := complete_ip_inv (s := slotWritten w rest s) heven hip
    exact ⟨slotWritten_wf w rest hip hwf, heven', hle', hodd⟩
  | @completed u hip hrun heff =>
    have hu : u.ip = s.ip := heff.ip
    obtain ⟨heven', hle'⟩ := complete_ip_inv (s := u) (hu ▸ heven) (hu ▸ hip)
    exact ⟨heff.wf (slotWritten_wf w rest hip hwf), heven', hle', heff.sp_odd hodd⟩
  | faulted hip hrun hraise => exact ⟨slotWritten_wf w rest hip hwf, heven, hle, hodd⟩

end Sys2Proof.Machine

/-! ### The obligations on reset and the step -/

namespace Sys2Proof.Proofs

open Sys2Proof Sys2Proof.Machine

/-- Settles O29: a step is idle, a reset, or the step of a word. -/
theorem everyStepKeepsTheInvariant : Obligations.EveryStepKeepsTheInvariant := by
  intro s t hs h
  match hin : s.inputs with
  | [] =>
    cases (step_idle hin).symm.trans h
    exact hs
  | .reset :: rest =>
    cases (step_reset hin).symm.trans h
    exact State.reset_inv
  | .word w :: rest => exact (wordStep_of_step hin h).inv hs

/-- Settles O28: nothing is listed, `ip` is 0, and `sp` is 65535. -/
theorem resetSatisfiesTheInvariant : Obligations.ResetSatisfiesTheInvariant :=
  State.reset_inv

/-- Settles O17: every way a word's step ends leaves a status, and takes that word. -/
theorem everyWordIsAnsweredWithAStatus : Obligations.EveryWordIsAnsweredWithAStatus := by
  intro s w rest h
  obtain ⟨t, hs, hw⟩ := step_word h
  obtain ⟨st, hst⟩ := hw.status
  exact ⟨t, st, hs, hst, hw.inputs, by cases st <;> decide⟩

/-- Settles O18: for a step by the ways it can end, for an instruction alone by what `exec` can
answer. -/
theorem okStepsAndNothingElseAdvanceIp : Obligations.OkStepsAndNothingElseAdvanceIp := by
  refine ⟨?step, ?alone⟩
  case step =>
    intro s w rest h
    obtain ⟨t, hs, hw⟩ := step_word h
    obtain ⟨hok, -, hip⟩ | ⟨hne, hip⟩ := hw.ip
    · exact ⟨t, hs, fun _ => hip, fun hne => absurd hok hne⟩
    · exact ⟨t, hs, fun hok => absurd hok hne, fun _ => hip⟩
  case alone =>
    intro i s
    obtain ⟨-, h⟩ | ⟨-, u, heff, h⟩ | ⟨-, e, -, h⟩ := exec_cases i s
    · exact ⟨_, h, fun _ => rfl, fun hne => absurd rfl hne⟩
    · exact ⟨_, h, fun _ => by rw [complete_ip, heff.ip], fun hne => absurd rfl hne⟩
    · exact ⟨_, h, fun hok => absurd hok (exception_status_ne_ok e), fun _ => rfl⟩

/-- Settles O15: the state in which the instruction runs is the one the slot write leaves. -/
theorem stepRunsTheDecodedInstruction : Obligations.StepRunsTheDecodedInstruction := by
  intro s w rest h hip
  exact ⟨slotWritten w rest s, step_word_inside h hip, holdsWord_slotWritten w rest s,
    sameMemoryOutside_slotWritten w rest s, rfl⟩

/-- Settles O16: the slot check comes before everything else. -/
theorem slotOutsideMemoryRejectsTheStep : Obligations.SlotOutsideMemoryRejectsTheStep :=
  fun _ _ _ h hip => step_word_outside h hip

/-- Settles O20: after the slot write a halted core only advances. -/
theorem haltedStepWritesTheSlotAndAdvances : Obligations.HaltedStepWritesTheSlotAndAdvances := by
  intro s w rest h hhalt hip
  have hexec := exec_of_halted (decode w) (s := slotWritten w rest s) hhalt
  exact ⟨_, (step_word_inside h hip).trans hexec, holdsWord_slotWritten w rest s,
    sameMemoryOutside_slotWritten w rest s, rfl⟩

/-- Settles O21: the word's step by the ways it can end; only the effect of HALT reaches
`halted`. -/
theorem haltIsTheOnlyTransition : Obligations.HaltIsTheOnlyTransition := by
  refine ⟨rfl, ?word, ?reset, ?idle⟩
  case word =>
    intro s w rest h
    obtain ⟨t, hs, hw⟩ := step_word h
    exact ⟨t, hs, hw.halted_of_halted, hw.halted_iff, hw.halted_of_status_ne_ok⟩
  case reset =>
    intro s rest h
    exact ⟨_, step_reset h, rfl⟩
  case idle =>
    intro s h
    exact ⟨s, step_idle h, rfl⟩

/-- Settles O22: the word was neither rejected nor completed, so its instruction raised after the
slot write. -/
theorem faultKeepsAllButTheSlot : Obligations.FaultKeepsAllButTheSlot := by
  intro s t w rest h hip hs hst
  rw [step_word_inside h hip] at hs
  obtain ⟨hrun, e, -, rfl⟩ := raises_of_status_ne_ok hs hst
  exact ⟨holdsWord_slotWritten w rest s, sameMemoryOutside_slotWritten w rest s, hrun, rfl⟩

/-- Settles O23: a rejected word is rejected again; after a fault the slot holds the word already,
and what the instruction raised by is unchanged. -/
theorem repeatedFaultLeavesTheSameState : Obligations.RepeatedFaultLeavesTheSameState := by
  intro s t w hwf h hst
  have hw : WordStep s w [] t := (wordStep_of_step rfl h).of_inputs
  cases hw with
  | rejected hip => exact step_word_outside rfl hip
  | halted => exact absurd rfl hst
  | completed => exact absurd rfl hst
  | @faulted e hip hrun hraise =>
    set t := takeException e (slotWritten w [] s)
    have hslot : slotWritten w [] t = t :=
      memWrite2_of_holdsWord (slotWritten_wf w [] hip hwf) (Nat.succ_le_succ hip)
        (holdsWord_slotWritten w [] s)
    calc submit w t
      _ = exec (decode w) (slotWritten w [] t) := submit_inside w hip
      _ = exec (decode w) t := by rw [hslot]
      _ = .next t := exec_of_raises (s := t) hrun (hraise.congr rfl rfl)

/-- Settles O24: the slot write, then an effect, each with its own frame. -/
theorem stepWritesOnlySlotAndStoredBytes : Obligations.StepWritesOnlySlotAndStoredBytes :=
  fun _ _ _ _ _ h hs hn hn' hstore => (wordStep_of_step h hs).read_other hn hn' hstore

/-- Settles O13: taking a reset event keeps nothing but the requests after it. -/
theorem resetEventRestoresTheResetState : Obligations.ResetEventRestoresTheResetState :=
  fun _ _ h => step_reset h

/-- Settles O14: with an empty queue there is nothing to take. -/
theorem nothingHappensWithoutARequest : Obligations.NothingHappensWithoutARequest :=
  fun _ h => step_idle h

/-- Settles O11: no byte is listed, so each reads as the reset content. -/
theorem resetHoldsTheStatedValues : Obligations.ResetHoldsTheStatedValues :=
  ⟨fun n _ => Memory.read_nil n, rfl, rfl, rfl⟩

/-- Settles O12: the reset state replicates one register value sixteen times. -/
theorem resetRegistersAndAccumulatorAreZero : Obligations.ResetRegistersAndAccumulatorAreZero :=
  ⟨reg_reset, rfl, rfl, rfl⟩

end Sys2Proof.Proofs

/-! The rest of the instructions: DUMP_ACCUM (R71), DIV (R76), the shifts (R84, R85), and the stack
(R87 to R90). -/

namespace Sys2Proof.Machine

/-! ### The results of DIV and of the shifts -/

/-- A quotient is never above its dividend, so it fits a word. -/
theorem toNat_ofNat_div (x : Word) (k : Nat) :
    (BitVec.ofNat 16 (x.toNat / k)).toNat = x.toNat / k :=
  (BitVec.toNat_ofNat _ _).trans
    (Nat.mod_eq_of_lt (Nat.lt_of_le_of_lt (Nat.div_le_self _ _) x.isLt))

theorem aluDiv_toNat (x y : Word) : (aluDiv x y).toNat = x.toNat / y.toNat :=
  toNat_ofNat_div x _

theorem aluLshift_toNat (x : Word) (n : Nat) : (aluLshift x n).toNat = x.toNat * 2 ^ n % 65536 :=
  BitVec.toNat_ofNat _ _

theorem aluLshift_eq (x : Word) (n : Nat) : aluLshift x n = x <<< n := by
  apply BitVec.eq_of_toNat_eq
  rw [aluLshift_toNat, BitVec.toNat_shiftLeft, Nat.shiftLeft_eq]

/-- Zeros enter at bit 0. -/
theorem aluLshift_getLsbD (x : Word) (n : Nat) {i : Nat} (hi : i < 16) :
    (aluLshift x n).getLsbD i = (decide (n ≤ i) && x.getLsbD (i - n)) := by
  rw [aluLshift_eq, BitVec.getLsbD_shiftLeft, decide_eq_true hi, Bool.true_and, ← decide_not]
  simp only [Nat.not_lt]

theorem aluRshift_toNat (x : Word) (n : Nat) : (aluRshift x n).toNat = x.toNat / 2 ^ n :=
  toNat_ofNat_div x _

theorem aluRshift_eq (x : Word) (n : Nat) : aluRshift x n = x >>> n := by
  apply BitVec.eq_of_toNat_eq
  rw [aluRshift_toNat, BitVec.toNat_ushiftRight, Nat.shiftRight_eq_div_pow]

/-- Bits past bit 15 read as 0, so zeros enter at bit 15. -/
theorem aluRshift_getLsbD (x : Word) (n i : Nat) :
    (aluRshift x n).getLsbD i = x.getLsbD (n + i) := by
  rw [aluRshift_eq, BitVec.getLsbD_ushiftRight]

/-! ### The stores of the accumulator, and the stack, while running -/

theorem exec_dumpAccum_of_running (a b c : Nibble) {s : State} (h : s.halted = false) :
    exec (.dumpAccum a b c) s = .next (complete (s.memWrite2 (memAddress b c) s.acc)) :=
  exec_of_operation_ok h (storeWord_memAddress b c s.acc s)

theorem exec_push_of_running (a b c : Nibble) {s : State} (h : s.halted = false)
    (hsp : 2 ≤ s.sp.toNat) : exec (.push a b c) s = .next (complete (pushed (s.reg a) s)) :=
  exec_of_operation_ok h (if_neg (Nat.not_lt.mpr hsp))

theorem exec_pushAccum_of_running (a b c : Nibble) {s : State} (h : s.halted = false)
    (hsp : 2 ≤ s.sp.toNat) : exec (.pushAccum a b c) s = .next (complete (pushed s.acc s)) :=
  exec_of_operation_ok h (if_neg (Nat.not_lt.mpr hsp))

theorem exec_pop_of_running (a b c : Nibble) {s : State} (h : s.halted = false)
    (hsp : s.sp.toNat ≤ 65533) : exec (.pop a b c) s = .next (complete (popped a s)) :=
  exec_of_operation_ok h (if_neg (Nat.not_lt.mpr hsp))

@[simp] theorem reg_popped_same (d : Nibble) (s : State) : (popped d s).reg d = popValue s :=
  s.reg_setReg_same d (popValue s)

theorem reg_popped_other {d r : Nibble} (h : r ≠ d) (s : State) : (popped d s).reg r = s.reg r :=
  s.reg_setReg_other h (popValue s)

/-- What a push with room for it leaves, and what it leaves alone. -/
theorem complete_pushed_frame (v : Word) {s : State} (hsp : 2 ≤ s.sp.toNat) :
    pushAddress s + 1 = s.sp.toNat ∧ HoldsWord (pushAddress s) v (complete (pushed v s)) ∧
      SameMemoryOutside (pushAddress s) s (complete (pushed v s)) ∧
      (complete (pushed v s)).sp.toNat + 2 = s.sp.toNat ∧ EndedOk s (complete (pushed v s)) ∧
      SameRegs s (complete (pushed v s)) ∧ (complete (pushed v s)).acc = s.acc ∧
      (complete (pushed v s)).halted = s.halted :=
  ⟨pushAddress_add_one hsp, holdsWord_memWrite2 _ v s, sameMemoryOutside_memWrite2 _ v s,
    sp_sub_two_toNat hsp, endedOk_complete rfl rfl, fun _ => rfl, rfl, rfl⟩

/-- A pop after a push of `v` reads the two bytes of `v` in the other order: its low byte from the
address of the high one (decision D11, log entry 9). -/
theorem popValue_pushed (v : Word) {s : State} (hsp : 2 ≤ s.sp.toNat) :
    popValue (complete (pushed v s)) = joinBytes (loByte v) (hiByte v) := by
  obtain ⟨haddr, ⟨hhi, hlo⟩, -, hdown, -⟩ := complete_pushed_frame v hsp
  rw [popValue, show (complete (pushed v s)).sp.toNat + 1 = pushAddress s by omega,
    show (complete (pushed v s)).sp.toNat + 2 = pushAddress s + 1 by omega, hhi, hlo]

/-- A pop after a push, whatever was pushed: the two bytes exchanged in `x[d]`, `sp` back, and every
other register as before. -/
theorem exec_pop_of_pushed (v : Word) (b c d : Nibble) {s : State} (hrun : s.halted = false)
    (hsp : 2 ≤ s.sp.toNat) :
    ∃ u : State, exec (.pop d b c) (complete (pushed v s)) = .next u ∧
      hiByte (u.reg d) = loByte v ∧ loByte (u.reg d) = hiByte v ∧ u.sp = s.sp ∧
      SameRegsExcept d s u := by
  have hle : (complete (pushed v s)).sp.toNat ≤ 65533 := by
    have hdown : (complete (pushed v s)).sp.toNat + 2 = s.sp.toNat := sp_sub_two_toNat hsp
    have hlt := s.sp.isLt
    omega
  have hvalue : (complete (popped d (complete (pushed v s)))).reg d =
      joinBytes (loByte v) (hiByte v) :=
    (reg_popped_same d _).trans (popValue_pushed v hsp)
  refine ⟨_, exec_pop_of_running d b c hrun hle, ?hi, ?lo, ?sp, ?regs⟩
  case hi => rw [hvalue, hiByte_joinBytes]
  case lo => rw [hvalue, loByte_joinBytes]
  case sp => exact BitVec.sub_add_cancel s.sp 2#16
  case regs => exact fun r hr => reg_popped_other hr _

end Sys2Proof.Machine

/-! ### The obligations on these instructions -/

namespace Sys2Proof.Proofs

open Sys2Proof Sys2Proof.Machine

/-- Settles O50: the pop takes the pushed word's bytes in the other order, for both ways to push. -/
theorem pushThenPopExchangesTheBytes : Obligations.PushThenPopExchangesTheBytes := by
  intro a b c d s hrun hsp
  obtain ⟨u, hu⟩ := exec_pop_of_pushed (s.reg a) b c d hrun hsp
  obtain ⟨u', hu'⟩ := exec_pop_of_pushed s.acc b c d hrun hsp
  exact ⟨⟨_, u, exec_push_of_running a b c hrun hsp, hu⟩,
    _, u', exec_pushAccum_of_running a b c hrun hsp, hu'⟩

/-- Settles O34: the select is DUMP_ACCUM, whose store is inside memory for every two nibbles. -/
theorem dumpAccumStoresTheAccumulator : Obligations.DumpAccumStoresTheAccumulator := by
  intro a b c s h
  exact ⟨rfl, _, exec_dumpAccum_of_running a b c h, memAddress_eq b c,
    holdsWord_memWrite2 (memAddress b c) s.acc s,
    sameMemoryOutside_memWrite2 (memAddress b c) s.acc s, endedOk_complete rfl rfl,
    fun _ => rfl, rfl, rfl, rfl⟩

/-- Settles O38: the quotient of natural numbers is the one between the two bounds. -/
theorem divWritesTheQuotientRoundedDown : Obligations.DivWritesTheQuotientRoundedDown := by
  refine ⟨?word, ?running⟩
  case word =>
    intro a b c
    exact decode_assemble ⟨0x7#4, a, b, c⟩
  case running =>
    intro a b c s h hb
    obtain ⟨t, hexec, hframe, hacc⟩ := exec_writes_acc_of_running _ h (operationOf_div a b c hb)
    have hpos : 0 < (s.reg b).toNat := Nat.pos_of_ne_zero fun h0 => hb (BitVec.eq_of_toNat_eq h0)
    refine ⟨t, hexec, hframe, ?_⟩
    rw [hacc, aluDiv_toNat, Nat.mul_comm (_ + 1)]
    exact ⟨Nat.div_mul_le_self _ _, Nat.lt_mul_div_succ _ hpos⟩

/-- Settles O44: the operation of LSHIFT is an accumulator write of the left shift. -/
theorem lshiftMultipliesByAPowerOfTwo : Obligations.LshiftMultipliesByAPowerOfTwo := by
  refine ⟨?word, ?running⟩
  case word =>
    intro a b c
    exact decode_assemble ⟨0xC#4, a, b, c⟩
  case running =>
    intro a b c s h
    obtain ⟨t, hexec, hframe, hacc⟩ := exec_writes_acc_of_running (.lshift a b c) h rfl
    exact ⟨t, hexec, hframe, hacc ▸ aluLshift_toNat (s.reg a) (shiftCount b),
      hacc ▸ fun _ hi => aluLshift_getLsbD (s.reg a) (shiftCount b) hi⟩

/-- Settles O45: the operation of RSHIFT is an accumulator write of the logical right shift. -/
theorem rshiftDividesByAPowerOfTwo : Obligations.RshiftDividesByAPowerOfTwo := by
  refine ⟨?word, ?running⟩
  case word =>
    intro a b c
    exact decode_assemble ⟨0xD#4, a, b, c⟩
  case running =>
    intro a b c s h
    obtain ⟨t, hexec, hframe, hacc⟩ := exec_writes_acc_of_running (.rshift a b c) h rfl
    exact ⟨t, hexec, hframe, hacc ▸ aluRshift_toNat (s.reg a) (shiftCount b),
      hacc ▸ aluRshift_getLsbD (s.reg a) (shiftCount b)⟩

/-- Settles O46: a push with room for it. -/
theorem pushStoresTheRegisterBelowTheStack : Obligations.PushStoresTheRegisterBelowTheStack := by
  refine ⟨?word, ?running⟩
  case word =>
    intro a b c
    exact decode_assemble ⟨0xE#4, a, b, c⟩
  case running =>
    intro a b c s h hsp
    exact ⟨_, exec_push_of_running a b c h hsp, complete_pushed_frame (s.reg a) hsp⟩

/-- Settles O48: the select is PUSH_ACCUM, a push as PUSH is. -/
theorem pushAccumStoresTheAccumulatorBelowTheStack :
    Obligations.PushAccumStoresTheAccumulatorBelowTheStack := by
  intro a b c s h hsp
  exact ⟨rfl, _, exec_pushAccum_of_running a b c h hsp, complete_pushed_frame s.acc hsp⟩

/-- Settles O47: a pop from inside memory writes the joined bytes and moves `sp`. -/
theorem popLoadsTheEntryAboveTheStack : Obligations.PopLoadsTheEntryAboveTheStack := by
  refine ⟨?word, ?running⟩
  case word =>
    intro a b c
    exact decode_assemble ⟨0xF#4, a, b, c⟩
  case running =>
    intro a b c s h hsp
    have hvalue : (complete (popped a s)).reg a = popValue s := reg_popped_same a s
    refine ⟨_, exec_pop_of_running a b c h hsp, ?lo, ?hi, fun r hr => reg_popped_other hr s,
      sp_add_two_toNat hsp, endedOk_complete rfl rfl, rfl, rfl, fun _ => rfl⟩
    case lo => rw [hvalue, popValue, loByte_joinBytes]
    case hi => rw [hvalue, popValue, hiByte_joinBytes]

end Sys2Proof.Proofs

/-! Runs (spec R68): what one step does not depend on, no run depends on (the accumulator, the
memory where nothing pops, and the queue of inputs), and what a run does to `ip` and to the bytes
below it. -/

namespace Sys2Proof.Machine

/-! ### Hiding a part of the state -/

/-- `φ` does not depend on what `hide` overwrites, up to what `hide` overwrites. -/
def Blind (hide φ : State → State) : Prop := ∀ s : State, hide (φ (hide s)) = hide (φ s)

theorem Blind.congr {hide φ : State → State} (h : Blind hide φ) {s s' : State}
    (hs : hide s = hide s') : hide (φ s) = hide (φ s') := by
  rw [← h s, hs, h s']

/-- `hide` overwrites a part of the state that is none of the registers, `sp`, `ip`, `halted` and
`status`, and that none of the state's operations reads. -/
structure Hides (hide : State → State) : Prop where
  regs : ∀ s, (hide s).regs = s.regs
  sp : ∀ s, (hide s).sp = s.sp
  ip : ∀ s, (hide s).ip = s.ip
  halted : ∀ s, (hide s).halted = s.halted
  status : ∀ s, (hide s).status = s.status
  setReg : ∀ a v, Blind hide (·.setReg a v)
  setAcc : ∀ v, Blind hide (·.setAcc v)
  setSp : ∀ v, Blind hide fun s => { s with sp := v }
  setHalted : Blind hide fun s => { s with halted := true }
  setInputs : ∀ inputs, Blind hide fun s => { s with inputs := inputs }
  memWrite2 : ∀ n v, Blind hide (·.memWrite2 n v)
  complete : Blind hide complete
  takeException : ∀ e, Blind hide (takeException e)

/-- The state without what `acc` holds. -/
def hideAcc (s : State) : State := { s with acc := 0#16 }

/-- The state without what memory holds. -/
def hideMem (s : State) : State := { s with mem := [] }

/-- The state without the queue of inputs (log entry 1). -/
def hideInputs (s : State) : State := { s with inputs := [] }

theorem hides_hideAcc : Hides hideAcc := by
  constructor <;> (repeat intro _) <;> rfl

theorem hides_hideMem : Hides hideMem := by
  constructor <;> (repeat intro _) <;> rfl

theorem hides_hideInputs : Hides hideInputs := by
  constructor <;> (repeat intro _) <;> rfl

theorem eq_of_hideAcc_eq {s t : State} (h : hideAcc s = hideAcc t) : t = { s with acc := t.acc } :=
  congrArg (fun u => { u with acc := t.acc }) h.symm

theorem eq_of_hideMem_eq {s t : State} (h : hideMem s = hideMem t) : t = { s with mem := t.mem } :=
  congrArg (fun u => { u with mem := t.mem }) h.symm

theorem eq_of_hideInputs_eq {s t : State} (h : hideInputs s = hideInputs t) :
    t = { s with inputs := t.inputs } :=
  congrArg (fun u => { u with inputs := t.inputs }) h.symm

/-- Hiding does not touch what the instruction reads of memory: only POP reads any. -/
def HidesNothingOf (hide : State → State) (i : Instr) : Prop :=
  (∀ s, (hide s).mem = s.mem) ∨ ∀ a b c : Nibble, i ≠ .pop a b c

/-- Both outcomes are next states, the same up to what `hide` overwrites. -/
def AgreeUpTo (hide : State → State) (o o' : Host.Outcome State Fault Refusal) : Prop :=
  ∃ t t' : State, o = .next t ∧ o' = .next t' ∧ hide t = hide t'

section Hides

variable {hide : State → State} {s s' : State}

theorem Hides.reg_eq (hg : Hides hide) (h : hide s = hide s') (r : Nibble) : s.reg r = s'.reg r :=
  State.reg_congr (by rw [← hg.regs s, h, hg.regs s']) r

theorem Hides.sp_eq (hg : Hides hide) (h : hide s = hide s') : s.sp = s'.sp := by
  rw [← hg.sp s, h, hg.sp s']

theorem Hides.ip_eq (hg : Hides hide) (h : hide s = hide s') : s.ip = s'.ip := by
  rw [← hg.ip s, h, hg.ip s']

theorem Hides.halted_eq (hg : Hides hide) (h : hide s = hide s') : s.halted = s'.halted := by
  rw [← hg.halted s, h, hg.halted s']

theorem Hides.status_eq (hg : Hides hide) (h : hide s = hide s') : s.status = s'.status := by
  rw [← hg.status s, h, hg.status s']

theorem Hides.pushWord_congr (hg : Hides hide) (h : hide s = hide s') (v : Word) :
    (pushWord v s).map hide = (pushWord v s').map hide := by
  have hsp := hg.sp_eq h
  unfold pushWord pushAddress
  rw [hsp]
  split
  · rfl
  · exact congrArg Except.ok ((hg.setSp _).congr ((hg.memWrite2 _ v).congr h))

theorem Hides.popWord_congr (hg : Hides hide) (h : hide s = hide s') (hmem : s.mem = s'.mem)
    (d : Nibble) : (popWord d s).map hide = (popWord d s').map hide := by
  have hsp := hg.sp_eq h
  unfold popWord popValue
  rw [hsp, hmem]
  split
  · rfl
  · exact congrArg Except.ok ((hg.setSp _).congr ((hg.setReg d _).congr h))

/-- The operation of an instruction that has a word does not depend on what is hidden. -/
theorem Hides.operationOf_congr (hg : Hides hide) (h : hide s = hide s') {i : Instr}
    (hwf : i.wf = true) (hi : HidesNothingOf hide i) :
    (operationOf i s).map hide = (operationOf i s').map hide := by
  have hreg := hg.reg_eq h
  cases i with
  | halt a b c => exact congrArg Except.ok (hg.setHalted.congr h)
  | nop2 a b c => exact congrArg Except.ok h
  | loadImmediate a b c => exact congrArg Except.ok ((hg.setReg a _).congr h)
  | dump a b c =>
    simp only [operationOf, storeWord_memAddress, hreg]
    exact congrArg Except.ok ((hg.memWrite2 _ _).congr h)
  | div a b c =>
    simp only [operationOf, hreg]
    split
    · rfl
    · exact congrArg Except.ok ((hg.setAcc _).congr h)
  | push a b c =>
    simp only [operationOf, hreg]
    exact hg.pushWord_congr h _
  | pop a b c =>
    obtain hmem | hne := hi
    · exact hg.popWord_congr h (by rw [← hmem s, h, hmem s']) a
    · exact absurd rfl (hne a b c)
  | dumpAccum | pushAccum => exact absurd hwf Bool.false_ne_true
  | add | sub | mult | and | or | not | xor | lshift | rshift =>
    simp only [operationOf, hreg]
    exact congrArg Except.ok ((hg.setAcc _).congr h)

theorem Hides.exec_congr (hg : Hides hide) (h : hide s = hide s') {i : Instr}
    (hwf : i.wf = true) (hi : HidesNothingOf hide i) : AgreeUpTo hide (exec i s) (exec i s') := by
  have hhalted := hg.halted_eq h
  cases hrun : s.halted with
  | true =>
    exact ⟨_, _, exec_of_halted i hrun, exec_of_halted i (hhalted ▸ hrun), hg.complete.congr h⟩
  | false =>
    have hrun' : s'.halted = false := hhalted ▸ hrun
    have hop := hg.operationOf_congr h hwf hi
    rw [exec_eq_runOperation, exec_eq_runOperation]
    cases ho : operationOf i s <;> cases ho' : operationOf i s' <;> rw [ho, ho'] at hop
    case ok.ok u u' =>
      exact ⟨_, _, runOperation_ok hrun ho, runOperation_ok hrun' ho',
        hg.complete.congr (Except.ok.inj hop)⟩
    case error.error e e' =>
      cases hop
      exact ⟨_, _, runOperation_error hrun ho, runOperation_error hrun' ho',
        (hg.takeException e).congr h⟩
    all_goals cases hop

/-- The step on a word does not depend on what is hidden, nor on the queue before it. -/
theorem Hides.step_congr (hg : Hides hide) {w : Word} {rest rest' : List Input}
    (hs : s.inputs = .word w :: rest) (hs' : s'.inputs = .word w :: rest')
    (h : hide { s with inputs := rest } = hide { s' with inputs := rest' })
    (hi : HidesNothingOf hide (decode w)) : AgreeUpTo hide (step s) (step s') := by
  have hip : s.ip = s'.ip :=
    hg.ip_eq (s := { s with inputs := rest }) (s' := { s' with inputs := rest' }) h
  rcases Nat.lt_or_ge 65534 s.ip.toNat with hout | hin
  · exact ⟨_, _, step_word_outside hs hout, step_word_outside hs' (hip ▸ hout),
      (hg.takeException _).congr h⟩
  · have hslot' : step s' =
        exec (decode w) (({ s' with inputs := rest' } : State).memWrite2 s.ip.toNat w) :=
      (step_word_inside hs' (hip ▸ hin)).trans (by rw [hip])
    rw [step_word_inside hs hin, hslot']
    exact hg.exec_congr ((hg.memWrite2 s.ip.toNat w).congr h) (decode_wf w) hi

theorem Hides.submit_congr (hg : Hides hide) (h : hide s = hide s') {w : Word}
    (hi : HidesNothingOf hide (decode w)) : AgreeUpTo hide (submit w s) (submit w s') := by
  have htaken : hide { s with inputs := [] } = hide { s' with inputs := [] } :=
    (hg.setInputs []).congr h
  exact hg.step_congr rfl rfl htaken hi

end Hides

/-! ### Runs -/

theorem runWords_cons {w : Word} {s t : State} (h : submit w s = .next t) (ws : List Word) :
    runWords (w :: ws) s = runWords ws t := by
  rw [runWords, h]

theorem okSteps_cons {w : Word} {s t : State} (h : submit w s = .next t) (ws : List Word) :
    okSteps (w :: ws) s = (if t.status = some .ok then 1 else 0) + okSteps ws t := by
  rw [okSteps, h]

/-- Two runs of the same words from states that agree up to what is hidden agree up to it, and count
as many Ok steps. -/
theorem Hides.runWords_congr {hide : State → State} (hg : Hides hide) {ws : List Word}
    (hws : ∀ w ∈ ws, HidesNothingOf hide (decode w)) {s s' : State} (h : hide s = hide s') :
    AgreeUpTo hide (runWords ws s) (runWords ws s') ∧ okSteps ws s = okSteps ws s' := by
  induction ws generalizing s s' with
  | nil => exact ⟨⟨s, s', rfl, rfl, h⟩, rfl⟩
  | cons w ws ih =>
    obtain ⟨hw, hws⟩ := List.forall_mem_cons.mp hws
    obtain ⟨t, t', hs, hs', ht⟩ := hg.submit_congr h hw
    obtain ⟨hrun, hok⟩ := ih hws ht
    rw [runWords_cons hs, runWords_cons hs', okSteps_cons hs, okSteps_cons hs', hg.status_eq ht,
      hok]
    exact ⟨hrun, rfl⟩

/-- A run answers a next state, whose `ip` counts its Ok steps; a run with an Ok step, which takes a
slot inside memory, ends with `ip` at most 65536. -/
theorem runWords_ip (ws : List Word) (s : State) :
    ∃ t : State, runWords ws s = .next t ∧ t.ip.toNat = s.ip.toNat + 2 * okSteps ws s ∧
      (okSteps ws s = 0 ∨ t.ip.toNat ≤ 65536) := by
  induction ws generalizing s with
  | nil => exact ⟨s, rfl, rfl, .inl rfl⟩
  | cons w ws ih =>
    obtain ⟨u, hs, hw⟩ := submit_wordStep w s
    obtain ⟨t, hrun, hip, hbound⟩ := ih u
    rw [runWords_cons hs, okSteps_cons hs]
    refine ⟨t, hrun, ?_⟩
    obtain ⟨hok, hle, hu⟩ | ⟨hne, hu⟩ := hw.ip
    · rw [if_pos hok]
      omega
    · rw [if_neg hne, ← hu, Nat.zero_add]
      exact ⟨hip, hbound⟩

/-- A word that stores nothing leaves every byte below its slot, and `ip` does not go down. -/
theorem WordStep.keeps_below_ip {s t : State} {w : Word} {rest : List Input}
    (h : WordStep s w rest t) (hstore : storeAddress (decode w) s = none) :
    s.ip.toNat ≤ t.ip.toNat ∧ ∀ n : Nat, n < s.ip.toNat → t.mem.read n = s.mem.read n := by
  constructor
  · obtain ⟨-, -, hip⟩ | ⟨-, hip⟩ := h.ip
    · exact hip ▸ Nat.le_add_right _ 2
    · exact hip ▸ Nat.le_refl _
  · intro n hn
    refine h.read_other (Nat.ne_of_lt hn) (Nat.ne_of_lt (Nat.lt_succ_of_lt hn)) fun m hm => ?_
    cases hstore.symm.trans hm

/-! ### The machine's run of a queue -/

theorem core_run_succ {s t : State} (h : step s = .next t) (k : Nat) :
    core.run (k + 1) s = core.run k t := by
  have hcore : core.step s = .next t := h
  simp only [Host.Core.run, hcore]

/-- The step on a word that heads a queue is the submission of that word, with the rest of the queue
kept. -/
theorem step_queued {s t : State} {w : Word} (h : submit w s = .next t) (rest : List Input) :
    step { s with inputs := .word w :: rest } = .next { t with inputs := rest } := by
  obtain ⟨t', u, ht, hu, hagree⟩ := hides_hideInputs.step_congr (w := w)
    (s := { s with inputs := [.word w] }) (s' := { s with inputs := .word w :: rest }) rfl rfl rfl
    (.inl fun _ => rfl)
  cases h.symm.trans ht
  have hrest : u.inputs = rest := (wordStep_of_step rfl hu).inputs
  rw [hu, eq_of_hideInputs_eq hagree, hrest]

end Sys2Proof.Machine

/-! ### The obligations on runs -/

namespace Sys2Proof.Proofs

open Sys2Proof Sys2Proof.Machine

/-- Settles O51: no word's instruction reads `acc`, so two runs that differ in it stay alike in
everything else. -/
theorem accumulatorInfluencesNothing : Obligations.AccumulatorInfluencesNothing := by
  intro ws s t v h
  obtain ⟨⟨u, t', hu, ht', hagree⟩, hok⟩ :=
    hides_hideAcc.runWords_congr (ws := ws) (s := s) (s' := { s with acc := v })
      (fun _ _ => .inl fun _ => rfl) rfl
  cases h.symm.trans hu
  exact ⟨t', ht', eq_of_hideAcc_eq hagree, hok.symm⟩

/-- Settles O52: no instruction but POP reads memory, and the word comes from the request. -/
theorem memoryInfluencesOnlyPop : Obligations.MemoryInfluencesOnlyPop := by
  intro ws s t m hws h
  obtain ⟨⟨u, t', hu, ht', hagree⟩, -⟩ :=
    hides_hideMem.runWords_congr (ws := ws) (s := s) (s' := { s with mem := m })
      (fun w hw => .inr (hws w hw)) rfl
  cases h.symm.trans hu
  exact ⟨t', ht', eq_of_hideMem_eq hagree⟩

/-- Settles O53: twice the Ok steps is at most the last `ip`, which is at most 65536. -/
theorem ipCountsTheOkStepsOfARun : Obligations.IpCountsTheOkStepsOfARun := by
  intro ws s
  obtain ⟨t, hrun, hip, hbound⟩ := runWords_ip ws s
  exact ⟨by omega, t, hrun, hip⟩

/-- Settles O54, by induction over the words: each step keeps the bytes below its own slot, which
lies at or above the first. -/
theorem bytesBelowIpAreNeverWrittenAgain : Obligations.BytesBelowIpAreNeverWrittenAgain := by
  intro ws s t hws h
  induction ws generalizing s with
  | nil =>
    cases h
    exact ⟨Nat.le_refl _, fun _ _ => rfl⟩
  | cons w ws ih =>
    obtain ⟨hw, hws⟩ := List.forall_mem_cons.mp hws
    obtain ⟨u, hs, hstep⟩ := submit_wordStep w s
    rw [runWords_cons hs] at h
    obtain ⟨hle, hread⟩ := hstep.keeps_below_ip (hw s)
    obtain ⟨hle', hread'⟩ := ih u hws h
    exact ⟨hle.trans hle', fun n hn => (hread' n (hn.trans_le hle)).trans (hread n hn)⟩

/-- Settles O55, by induction over the words: the machine's step on the head of the queue is the
submission of that word. -/
theorem queuedWordsRunInOrder : Obligations.QueuedWordsRunInOrder := by
  intro ws s
  induction ws generalizing s with
  | nil => rfl
  | cons w ws ih =>
    obtain ⟨t, hs, hstep⟩ := submit_wordStep w { s with inputs := [] }
    have ht : { t with inputs := [] } = t := hstep.inputs ▸ rfl
    have hhead := core_run_succ (step_queued hs (ws.map .word)) ws.length
    have htail :
        runWords ws { t with inputs := [] } = runWords (w :: ws) { s with inputs := [] } := by
      rw [ht, runWords_cons hs]
    exact (hhead.trans (ih t)).trans htail

end Sys2Proof.Proofs

/-! Observation and requesters (spec/50_interfaces.md): what the canonical memory lists (R97, R98),
the text of a request (R99), and two racing requests (R96). -/

namespace Sys2Proof.Machine

/-! ### The snapshot -/

/-- The canonical memory lists its cells by rising address. -/
theorem Memory.pairwise_of_wf {m : Memory} (h : Memory.wf m = true) :
    (m.map Prod.fst).Pairwise (· < ·) := by
  induction m with
  | nil => exact .nil
  | cons cell m ih =>
    obtain ⟨-, -, hlt, hw⟩ := Memory.wf_cons.mp h
    exact .cons (List.forall_mem_map.mpr hlt) (ih hw)

/-- The canonical memory lists exactly the legal addresses that do not read as the reset content. -/
theorem Memory.mem_iff_read {m : Memory} (h : Memory.wf m = true) (n : Nat) (b : Byte) :
    (n, b) ∈ m ↔ n ≤ 65535 ∧ b ≠ 0x00#8 ∧ m.read n = b := by
  induction m with
  | nil =>
    rw [Memory.read_nil]
    exact ⟨fun hmem => absurd hmem List.not_mem_nil, fun ⟨_, hb, hread⟩ => absurd hread.symm hb⟩
  | cons cell m ih =>
    obtain ⟨k, v⟩ := cell
    obtain ⟨hk, hv, hlt, hw⟩ := Memory.wf_cons.mp h
    rw [List.mem_cons, Memory.read_cons, Prod.mk.injEq]
    by_cases hkn : k = n
    · subst hkn
      have hnot : (k, b) ∉ m := fun hmem => Nat.lt_irrefl k (hlt _ hmem)
      rw [if_pos rfl]
      constructor
      · rintro (⟨-, rfl⟩ | hmem)
        · exact ⟨hk, hv, rfl⟩
        · exact absurd hmem hnot
      · rintro ⟨-, -, rfl⟩
        exact .inl ⟨rfl, rfl⟩
    · rw [if_neg hkn, ← ih hw, or_iff_right fun heq => hkn heq.1.symm]

theorem registerLetters_getElem? (r : Nibble) :
    registerLetters[r.toNat]? = some (Char.ofNat (65 + r.toNat)) := by
  revert r
  decide

theorem observe_registers_getElem? (s : State) (r : Nibble) :
    (observe s).registers[r.toNat]? = some (Char.ofNat (65 + r.toNat), s.reg r) := by
  have hreg : s.regs.toList[r.toNat]? = some (s.reg r) := by
    rw [Vector.getElem?_toList]
    exact Vector.getElem?_eq_getElem r.isLt
  exact List.getElem?_zip_eq_some.mpr ⟨registerLetters_getElem? r, hreg⟩

/-- The listed registers are all of them, under sixteen letters. -/
theorem regs_toList_eq (s : State) : s.regs.toList = (observe s).registers.map Prod.snd :=
  (List.map_snd_zip (by simp [registerLetters])).symm

theorem observe_regs {s t : State} (h : observe s = observe t) : s.regs = t.regs := by
  apply Vector.toList_inj.mp
  rw [regs_toList_eq, h, regs_toList_eq]

/-! ### The text of a request -/

theorem hexDigit_hexCharacter (d : Nibble) : hexDigit (hexCharacter d) = some d.toNat := by
  revert d
  decide

/-- One digit in capitals appends itself to the number. -/
theorem parseDigits_hexCharacter (n : Nat) (d : Nibble) (bs : List Byte) :
    parseDigits hexDigit 16 n (hexCharacter d :: bs) =
      parseDigits hexDigit 16 (16 * n + d.toNat) bs := by
  rw [parseDigits, hexDigit_hexCharacter]

/-- A word is the number its four nibbles spell to the base 16. -/
theorem toNat_eq_fields (w : Word) :
    16 * (16 * (16 * (fields w).op.toNat + (fields w).a.toNat) + (fields w).b.toNat) +
      (fields w).c.toNat = w.toNat := by
  have hw := w.isLt
  simp only [fields, BitVec.extractLsb'_toNat, Nat.shiftRight_eq_div_pow]
  omega

theorem parseText_hex (bs : List Byte) :
    parseText (48#8 :: 120#8 :: bs) = parseNumber hexDigit 16 bs := rfl

end Sys2Proof.Machine

/-! ### The obligations on observation and requesters -/

namespace Sys2Proof.Proofs

open Sys2Proof Sys2Proof.Machine

/-- Settles O56: the snapshot's memory is the canonical list itself. -/
theorem observationListsExactlyTheNonzeroCells :
    Obligations.ObservationListsExactlyTheNonzeroCells := by
  intro s hwf
  exact ⟨Memory.pairwise_of_wf hwf, Memory.mem_iff_read hwf,
    by simp [observe, registerLetters], observe_registers_getElem? s⟩

/-- Settles O57: every field but the two of the interface is a field of the snapshot, the registers
under their letters. -/
theorem observationDeterminesTheState : Obligations.ObservationDeterminesTheState := by
  intro s t h
  have hregs := observe_regs h
  simp only [observe, Observation.mk.injEq] at h
  obtain ⟨-, hacc, hip, hsp, hhalted, hmem⟩ := h
  rw [hregs, hacc, hip, hsp, hhalted, hmem]

/-- Settles O10: the four digits spell the word's own number, which is at most 65535. -/
theorem fourHexadecimalDigitsSpellTheWord : Obligations.FourHexadecimalDigitsSpellTheWord := by
  intro w
  have htext : parseText [48#8, 120#8, hexCharacter (fields w).op, hexCharacter (fields w).a,
      hexCharacter (fields w).b, hexCharacter (fields w).c] = some w.toNat := by
    rw [parseText_hex, parseNumber, List.isEmpty_cons, if_neg Bool.false_ne_true]
    simp only [parseDigits_hexCharacter]
    rw [parseDigits, Nat.mul_zero, Nat.zero_add, toNat_eq_fields]
  rw [parseRequest, htext]
  simp only [if_pos (Nat.le_of_lt_succ w.isLt), BitVec.ofNat_toNat, BitVec.setWidth_eq]

/-- Settles O58: the arbiter has two orders to choose from, and the machine runs both. -/
theorem racingRequestsEndAsOneOrderOrTheOther :
    Obligations.RacingRequestsEndAsOneOrderOrTheOther := by
  intro ws t horder h
  cases horder with
  | first w hrest =>
    cases hrest with
    | second w' hdone =>
      cases hdone
      cases h
      exact ⟨rfl, .inl ⟨rfl, rfl⟩⟩
  | second w hrest =>
    cases hrest with
    | first w' hdone =>
      cases hdone
      cases h
      exact ⟨rfl, .inr ⟨rfl, rfl⟩⟩

end Sys2Proof.Proofs
